-- ==== Sys2Proof/Word.lean ====
section
/-!
DEFINITION. The widths of the machine: a byte is 8 bits, a half word 16, a word (a register, an effective
address, an instruction) 32 (00_scope.md R4; decision D1). Bit 0 is the least significant bit everywhere in this
package (the LSB-0 numbering of R5).
-/

namespace Sys2Proof

/-- A byte, 8 bits (R4). -/
abbrev Byte := BitVec 8

/-- A half word, 16 bits, 2 bytes (R4). -/
abbrev Half := BitVec 16

/-- A word, 32 bits, 4 bytes: a general-purpose register, an effective address or an instruction (R4, R34). -/
abbrev Word := BitVec 32

/-- The number of a general-purpose register: a 5-bit field of the instruction (R8, R37), compared as an unsigned
integer 0 to 31 (R6). -/
abbrev Reg := BitVec 5

/-- The size of the address space: effective addresses run from 0 to `addressSpace - 1` (R15). -/
abbrev addressSpace : Nat := 4294967296

end Sys2Proof
end

