-- ==== Sys2Proof/Config.lean ====
section
/-!
DEFINITION. The free values of the spec: the primitive `draw_N()` of 00_scope.md R7, "an N-bit value under no law,
different at each use". Each is an opaque function of a plain counter of the state (`State.draws`), so nothing in
Lean can evaluate it or prove a value of it. Assumption log entry 3.
-/

namespace Sys2Proof

/-- FREE VALUE. `draw_32()` of R7: what lswx leaves in rD when the byte count is zero (45_load_store_string.md
R100; decision D18). The argument is the state's draw counter. -/
opaque Config.drawWord : Nat → Word

/-- FREE VALUE. The draw between the old and the new value of one register or one byte when an exception stops a
multiple or string instruction part-way (44_load_store_multiple.md R94; 45_load_store_string.md R105; decision D14):
true is the new value. The argument is the state's draw counter plus the place in the range. -/
opaque Config.drawNew : Nat → Bool

end Sys2Proof
end

