-- ==== Sys2Proof/Syntax.lean ====
section
/-!
DEFINITION. The 38 instructions in scope (00_scope.md R2), one constructor per row of spec/opcode_table.json and in
its order, with the operands of 30_encoding.md R44 in the order the assembler writes them. Operand fields are the
fields of R37: a register number is 5 bits, `d` is the 16-bit immediate before sign extension, `nb` is the 5-bit byte
count field of lswi and stswi (0 stands for 32). The Rc bit is no operand: it must be 0 (R41).
-/

namespace Sys2Proof

/-- An instruction of the opcode table with its operand fields. -/
inductive Instr where
  /-- Load Byte and Zero, `lbz rD,d(rA)` (R53). -/
  | lbz (rD : Reg) (d : BitVec 16) (rA : Reg)
  /-- Load Byte and Zero Indexed, `lbzx rD,rA,rB` (R54). -/
  | lbzx (rD rA rB : Reg)
  /-- Load Byte and Zero with Update, `lbzu rD,d(rA)` (R55). -/
  | lbzu (rD : Reg) (d : BitVec 16) (rA : Reg)
  /-- Load Byte and Zero with Update Indexed, `lbzux rD,rA,rB` (R56). -/
  | lbzux (rD rA rB : Reg)
  /-- Load Half Word and Zero, `lhz rD,d(rA)` (R57). -/
  | lhz (rD : Reg) (d : BitVec 16) (rA : Reg)
  /-- Load Half Word and Zero Indexed, `lhzx rD,rA,rB` (R58). -/
  | lhzx (rD rA rB : Reg)
  /-- Load Half Word and Zero with Update, `lhzu rD,d(rA)` (R59). -/
  | lhzu (rD : Reg) (d : BitVec 16) (rA : Reg)
  /-- Load Half Word and Zero with Update Indexed, `lhzux rD,rA,rB` (R60). -/
  | lhzux (rD rA rB : Reg)
  /-- Load Half Word Algebraic, `lha rD,d(rA)` (R61). -/
  | lha (rD : Reg) (d : BitVec 16) (rA : Reg)
  /-- Load Half Word Algebraic Indexed, `lhax rD,rA,rB` (R62). -/
  | lhax (rD rA rB : Reg)
  /-- Load Half Word Algebraic with Update, `lhau rD,d(rA)` (R63). -/
  | lhau (rD : Reg) (d : BitVec 16) (rA : Reg)
  /-- Load Half Word Algebraic with Update Indexed, `lhaux rD,rA,rB` (R64). -/
  | lhaux (rD rA rB : Reg)
  /-- Load Word and Zero, `lwz rD,d(rA)` (R65). -/
  | lwz (rD : Reg) (d : BitVec 16) (rA : Reg)
  /-- Load Word and Zero Indexed, `lwzx rD,rA,rB` (R66). -/
  | lwzx (rD rA rB : Reg)
  /-- Load Word and Zero with Update, `lwzu rD,d(rA)` (R67). -/
  | lwzu (rD : Reg) (d : BitVec 16) (rA : Reg)
  /-- Load Word and Zero with Update Indexed, `lwzux rD,rA,rB` (R68). -/
  | lwzux (rD rA rB : Reg)
  /-- Store Byte, `stb rS,d(rA)` (R73). -/
  | stb (rS : Reg) (d : BitVec 16) (rA : Reg)
  /-- Store Byte Indexed, `stbx rS,rA,rB` (R74). -/
  | stbx (rS rA rB : Reg)
  /-- Store Byte with Update, `stbu rS,d(rA)` (R75). -/
  | stbu (rS : Reg) (d : BitVec 16) (rA : Reg)
  /-- Store Byte with Update Indexed, `stbux rS,rA,rB` (R76). -/
  | stbux (rS rA rB : Reg)
  /-- Store Half Word, `sth rS,d(rA)` (R77). -/
  | sth (rS : Reg) (d : BitVec 16) (rA : Reg)
  /-- Store Half Word Indexed, `sthx rS,rA,rB` (R78). -/
  | sthx (rS rA rB : Reg)
  /-- Store Half Word with Update, `sthu rS,d(rA)` (R79). -/
  | sthu (rS : Reg) (d : BitVec 16) (rA : Reg)
  /-- Store Half Word with Update Indexed, `sthux rS,rA,rB` (R80). -/
  | sthux (rS rA rB : Reg)
  /-- Store Word, `stw rS,d(rA)` (R81). -/
  | stw (rS : Reg) (d : BitVec 16) (rA : Reg)
  /-- Store Word Indexed, `stwx rS,rA,rB` (R82). -/
  | stwx (rS rA rB : Reg)
  /-- Store Word with Update, `stwu rS,d(rA)` (R83). -/
  | stwu (rS : Reg) (d : BitVec 16) (rA : Reg)
  /-- Store Word with Update Indexed, `stwux rS,rA,rB` (R84). -/
  | stwux (rS rA rB : Reg)
  /-- Load Half Word Byte-Reverse Indexed, `lhbrx rD,rA,rB` (R86). -/
  | lhbrx (rD rA rB : Reg)
  /-- Load Word Byte-Reverse Indexed, `lwbrx rD,rA,rB` (R87). -/
  | lwbrx (rD rA rB : Reg)
  /-- Store Half Word Byte-Reverse Indexed, `sthbrx rS,rA,rB` (R88). -/
  | sthbrx (rS rA rB : Reg)
  /-- Store Word Byte-Reverse Indexed, `stwbrx rS,rA,rB` (R89). -/
  | stwbrx (rS rA rB : Reg)
  /-- Load Multiple Word, `lmw rD,d(rA)` (R91). -/
  | lmw (rD : Reg) (d : BitVec 16) (rA : Reg)
  /-- Store Multiple Word, `stmw rS,d(rA)` (R92). -/
  | stmw (rS : Reg) (d : BitVec 16) (rA : Reg)
  /-- Load String Word Immediate, `lswi rD,rA,NB` (R99). -/
  | lswi (rD rA : Reg) (nb : BitVec 5)
  /-- Load String Word Indexed, `lswx rD,rA,rB` (R100). -/
  | lswx (rD rA rB : Reg)
  /-- Store String Word Immediate, `stswi rS,rA,NB` (R101). -/
  | stswi (rS rA : Reg) (nb : BitVec 5)
  /-- Store String Word Indexed, `stswx rS,rA,rB` (R102). -/
  | stswx (rS rA rB : Reg)
deriving DecidableEq, Repr

end Sys2Proof
end

