-- ==== Sys2Proof/WellFormed.lean ====
section
/-!
DEFINITION. Which instructions are well formed: none of the invalid forms of 30_encoding.md R42 that the operand
fields alone decide. The overlap of lswx that depends on XER_BC is decided when the instruction executes
(45_load_store_string.md R100, R103), and rows 3 and 5 (bit 0 of an X-form word) by the decoder, since no operand
holds that bit.
-/

namespace Sys2Proof

/-- The rows of the table of invalid forms (R42). -/
inductive InvalidRow where
  /-- Row 1: a load with update with rA = 0 or rA = rD. -/
  | loadUpdate
  /-- Row 2: a store with update with rA = 0. -/
  | storeUpdate
  /-- Row 3: an X-form store with bit 0 (Rc) set. -/
  | storeRc
  /-- Row 4: lmw with rA in rD to r31. -/
  | lmwRange
  /-- Row 5: an X-form load with bit 0 set. -/
  | loadRc
  /-- Row 6: lswi with rA among the registers to be loaded. -/
  | lswiRange
  /-- Row 7: lswx with rD = rA, rD = rB, or rA or rB among the registers to be loaded. -/
  | lswxRange
deriving DecidableEq, Repr

/-- How many registers a string of `n` bytes fills: `ceil(n / 4)` (45_load_store_string.md R98). -/
def registerCount (n : Nat) : Nat := (n + 3) / 4

/-- Register `r` is one of `(rD + j) mod 32` for `0 <= j < count` (R99, R100, R103). -/
def registerRunHas (rD : Reg) (count : Nat) (r : Reg) : Bool :=
  (List.range count).any fun j => r == rD + BitVec.ofNat 5 j

/-- The byte count of lswi and stswi: 0 stands for 32 (R37, R99). -/
def immediateCount (nb : BitVec 5) : Nat := if nb = 0 then 32 else nb.toNat

/-- The row of R42 that the operand fields of an instruction fall under, if any. -/
def Instr.invalidRow : Instr → Option InvalidRow
  | .lbzu rD _ rA | .lhzu rD _ rA | .lhau rD _ rA | .lwzu rD _ rA
  | .lbzux rD rA _ | .lhzux rD rA _ | .lhaux rD rA _ | .lwzux rD rA _ =>
    if rA = 0 ∨ rA = rD then some .loadUpdate else none
  | .stbu _ _ rA | .sthu _ _ rA | .stwu _ _ rA
  | .stbux _ rA _ | .sthux _ rA _ | .stwux _ rA _ =>
    if rA = 0 then some .storeUpdate else none
  | .lmw rD _ rA => if rD.toNat ≤ rA.toNat then some .lmwRange else none
  | .lswi rD rA nb =>
    if registerRunHas rD (registerCount (immediateCount nb)) rA then some .lswiRange else none
  | .lswx rD rA rB => if rD = rA ∨ rD = rB then some .lswxRange else none
  | .lbz _ _ _ | .lhz _ _ _ | .lha _ _ _ | .lwz _ _ _
  | .lbzx _ _ _ | .lhzx _ _ _ | .lhax _ _ _ | .lwzx _ _ _
  | .stb _ _ _ | .sth _ _ _ | .stw _ _ _
  | .stbx _ _ _ | .sthx _ _ _ | .stwx _ _ _
  | .lhbrx _ _ _ | .lwbrx _ _ _ | .sthbrx _ _ _ | .stwbrx _ _ _
  | .stmw _ _ _ | .stswi _ _ _ | .stswx _ _ _ => none

/-- An instruction that is no invalid form by its fields (R42). -/
def Instr.wellFormed (i : Instr) : Bool := i.invalidRow.isNone

end Sys2Proof
end

