-- ==== Sys2Proof/Decode.lean ====
section
/-!
DEFINITION. Decoding and encoding (30_encoding.md R34 to R41), and the big-endian order of the bytes of a word
(20_memory.md R20), which instruction fetch and data accesses share. The opcode numbers are those of R38 and R39
(the spec's own standing for them: from general knowledge; assumption log entry 16).
-/

namespace Sys2Proof

/-! ## Bytes of a word, big-endian (R20) -/

/-- The bytes of a list as one number, the first the most significant (R20, R21). A list of at most four bytes. -/
def beWord (bs : List Byte) : Word :=
  bs.foldl (fun w b => (w <<< 8) ||| b.setWidth 32) 0

/-- The low-order `n` bytes of a word, the most significant of them first (R20, R22). -/
def beBytes : Nat → Word → List Byte
  | 0, _ => []
  | n + 1, v => v.extractLsb' (8 * n) 8 :: beBytes n v

/-! ## Decoding (R40) -/

/-- Why a word has no instruction (R40). -/
inductive DecodeError where
  /-- The word is none of the 38 instructions (R43). -/
  | notInScope (w : Word)
  /-- An X-form word of the table with bit 0 set: row 3 or row 5 of R42 (R41). -/
  | invalidForm (row : InvalidRow)
deriving DecidableEq, Repr

/-- The D-form row with primary opcode `op` (R38), its operands by R37. -/
def decodeD (op : BitVec 6) (r rA : Reg) (d : BitVec 16) : Option Instr :=
  match op with
  | 32 => some (.lwz r d rA)
  | 33 => some (.lwzu r d rA)
  | 34 => some (.lbz r d rA)
  | 35 => some (.lbzu r d rA)
  | 36 => some (.stw r d rA)
  | 37 => some (.stwu r d rA)
  | 38 => some (.stb r d rA)
  | 39 => some (.stbu r d rA)
  | 40 => some (.lhz r d rA)
  | 41 => some (.lhzu r d rA)
  | 42 => some (.lha r d rA)
  | 43 => some (.lhau r d rA)
  | 44 => some (.sth r d rA)
  | 45 => some (.sthu r d rA)
  | 46 => some (.lmw r d rA)
  | 47 => some (.stmw r d rA)
  | _ => none

/-- The X-form row with extended opcode `xo` (R39), its operands by R37. -/
def decodeX (xo : BitVec 10) (r rA rB : Reg) : Option Instr :=
  match xo with
  | 23 => some (.lwzx r rA rB)
  | 55 => some (.lwzux r rA rB)
  | 87 => some (.lbzx r rA rB)
  | 119 => some (.lbzux r rA rB)
  | 151 => some (.stwx r rA rB)
  | 183 => some (.stwux r rA rB)
  | 215 => some (.stbx r rA rB)
  | 247 => some (.stbux r rA rB)
  | 279 => some (.lhzx r rA rB)
  | 311 => some (.lhzux r rA rB)
  | 343 => some (.lhax r rA rB)
  | 375 => some (.lhaux r rA rB)
  | 407 => some (.sthx r rA rB)
  | 439 => some (.sthux r rA rB)
  | 533 => some (.lswx r rA rB)
  | 534 => some (.lwbrx r rA rB)
  | 597 => some (.lswi r rA rB)
  | 661 => some (.stswx r rA rB)
  | 662 => some (.stwbrx r rA rB)
  | 725 => some (.stswi r rA rB)
  | 790 => some (.lhbrx r rA rB)
  | 918 => some (.sthbrx r rA rB)
  | _ => none

/-- The row of R42 for bit 0 of an X-form word: row 3 for a store, row 5 for a load (R41). A D-form word has no such
bit, so its line is never asked for. -/
def rcRow (i : Instr) : InvalidRow :=
  match i with
  | .stbx _ _ _ | .stbux _ _ _ | .sthx _ _ _ | .sthux _ _ _ | .stwx _ _ _ | .stwux _ _ _ | .sthbrx _ _ _ | .stwbrx _ _ _ | .stswi _ _ _ | .stswx _ _ _ => .storeRc
  | .lbzx _ _ _ | .lbzux _ _ _ | .lhzx _ _ _ | .lhzux _ _ _ | .lhax _ _ _ | .lhaux _ _ _ | .lwzx _ _ _ | .lwzux _ _ _ | .lhbrx _ _ _ | .lwbrx _ _ _ | .lswi _ _ _ | .lswx _ _ _
  | .lbz _ _ _ | .lbzu _ _ _ | .lhz _ _ _ | .lhzu _ _ _ | .lha _ _ _ | .lhau _ _ _ | .lwz _ _ _ | .lwzu _ _ _ | .stb _ _ _ | .stbu _ _ _ | .sth _ _ _ | .sthu _ _ _ | .stw _ _ _ | .stwu _ _ _ | .lmw _ _ _ | .stmw _ _ _ => .loadRc

/-- The decoding procedure of R40 up to its last line: the invalid-form checks of R42 on the operand fields belong
to the decoded instruction's own rule and are made where it executes. -/
def decodeWord (w : Word) : Except DecodeError Instr :=
  let op := w.extractLsb' 26 6
  let r := w.extractLsb' 21 5
  let rA := w.extractLsb' 16 5
  let rB := w.extractLsb' 11 5
  if op = 31 then
    match decodeX (w.extractLsb' 1 10) r rA rB with
    | some i => if w.getLsbD 0 then .error (.invalidForm (rcRow i)) else .ok i
    | none => .error (.notInScope w)
  else
    match decodeD op r rA (w.extractLsb' 0 16) with
    | some i => .ok i
    | none => .error (.notInScope w)

/-- Decoding of any bytes: the first four, the first the most significant (R20, R34). Fewer than four make a word
whose opcode is 0 to 3, which R40 rejects as NotInScope. -/
def decode (bs : List Byte) : Except DecodeError Instr := decodeWord (beWord (bs.take 4))

/-! ## Encoding (R35 to R39) -/

/-- A D-form word (R35). -/
def dWord (op : BitVec 6) (r rA : Reg) (d : BitVec 16) : Word := op ++ r ++ rA ++ d

/-- An X-form word, its bit 0 zero (R36, R41). -/
def xWord (r rA rB : Reg) (xo : BitVec 10) : Word := 31#6 ++ r ++ rA ++ rB ++ xo ++ 0#1

/-- The word of an instruction (R38, R39). -/
def encode : Instr → Word
  | .lbz rD d rA => dWord 34 rD rA d
  | .lbzx rD rA rB => xWord rD rA rB 87
  | .lbzu rD d rA => dWord 35 rD rA d
  | .lbzux rD rA rB => xWord rD rA rB 119
  | .lhz rD d rA => dWord 40 rD rA d
  | .lhzx rD rA rB => xWord rD rA rB 279
  | .lhzu rD d rA => dWord 41 rD rA d
  | .lhzux rD rA rB => xWord rD rA rB 311
  | .lha rD d rA => dWord 42 rD rA d
  | .lhax rD rA rB => xWord rD rA rB 343
  | .lhau rD d rA => dWord 43 rD rA d
  | .lhaux rD rA rB => xWord rD rA rB 375
  | .lwz rD d rA => dWord 32 rD rA d
  | .lwzx rD rA rB => xWord rD rA rB 23
  | .lwzu rD d rA => dWord 33 rD rA d
  | .lwzux rD rA rB => xWord rD rA rB 55
  | .stb rS d rA => dWord 38 rS rA d
  | .stbx rS rA rB => xWord rS rA rB 215
  | .stbu rS d rA => dWord 39 rS rA d
  | .stbux rS rA rB => xWord rS rA rB 247
  | .sth rS d rA => dWord 44 rS rA d
  | .sthx rS rA rB => xWord rS rA rB 407
  | .sthu rS d rA => dWord 45 rS rA d
  | .sthux rS rA rB => xWord rS rA rB 439
  | .stw rS d rA => dWord 36 rS rA d
  | .stwx rS rA rB => xWord rS rA rB 151
  | .stwu rS d rA => dWord 37 rS rA d
  | .stwux rS rA rB => xWord rS rA rB 183
  | .lhbrx rD rA rB => xWord rD rA rB 790
  | .lwbrx rD rA rB => xWord rD rA rB 534
  | .sthbrx rS rA rB => xWord rS rA rB 918
  | .stwbrx rS rA rB => xWord rS rA rB 662
  | .lmw rD d rA => dWord 46 rD rA d
  | .stmw rS d rA => dWord 47 rS rA d
  | .lswi rD rA nb => xWord rD rA nb 597
  | .lswx rD rA rB => xWord rD rA rB 533
  | .stswi rS rA nb => xWord rS rA nb 725
  | .stswx rS rA rB => xWord rS rA rB 661

/-- The four bytes of an instruction as memory holds them, lowest address first (R34). -/
def encodeBytes (i : Instr) : List Byte := beBytes 4 (encode i)

/-! ## The opcode table's words -/

/-- The `match` of an instruction's row: its word with all operand fields zero (R38, R39). -/
def rowMatch : Instr → Word
  | .lbz _ _ _ => 0x88000000
  | .lbzx _ _ _ => 0x7c0000ae
  | .lbzu _ _ _ => 0x8c000000
  | .lbzux _ _ _ => 0x7c0000ee
  | .lhz _ _ _ => 0xa0000000
  | .lhzx _ _ _ => 0x7c00022e
  | .lhzu _ _ _ => 0xa4000000
  | .lhzux _ _ _ => 0x7c00026e
  | .lha _ _ _ => 0xa8000000
  | .lhax _ _ _ => 0x7c0002ae
  | .lhau _ _ _ => 0xac000000
  | .lhaux _ _ _ => 0x7c0002ee
  | .lwz _ _ _ => 0x80000000
  | .lwzx _ _ _ => 0x7c00002e
  | .lwzu _ _ _ => 0x84000000
  | .lwzux _ _ _ => 0x7c00006e
  | .stb _ _ _ => 0x98000000
  | .stbx _ _ _ => 0x7c0001ae
  | .stbu _ _ _ => 0x9c000000
  | .stbux _ _ _ => 0x7c0001ee
  | .sth _ _ _ => 0xb0000000
  | .sthx _ _ _ => 0x7c00032e
  | .sthu _ _ _ => 0xb4000000
  | .sthux _ _ _ => 0x7c00036e
  | .stw _ _ _ => 0x90000000
  | .stwx _ _ _ => 0x7c00012e
  | .stwu _ _ _ => 0x94000000
  | .stwux _ _ _ => 0x7c00016e
  | .lhbrx _ _ _ => 0x7c00062c
  | .lwbrx _ _ _ => 0x7c00042c
  | .sthbrx _ _ _ => 0x7c00072c
  | .stwbrx _ _ _ => 0x7c00052c
  | .lmw _ _ _ => 0xb8000000
  | .stmw _ _ _ => 0xbc000000
  | .lswi _ _ _ => 0x7c0004aa
  | .lswx _ _ _ => 0x7c00042a
  | .stswi _ _ _ => 0x7c0005aa
  | .stswx _ _ _ => 0x7c00052a

/-- The `mask` of an instruction's row: primary opcode, and for the X-form also the extended opcode and bit 0 (R38,
R39). -/
def rowMask : Instr → Word
  | .lbz _ _ _ | .lbzu _ _ _ | .lhz _ _ _ | .lhzu _ _ _ | .lha _ _ _ | .lhau _ _ _ | .lwz _ _ _ | .lwzu _ _ _ | .stb _ _ _
  | .stbu _ _ _ | .sth _ _ _ | .sthu _ _ _ | .stw _ _ _ | .stwu _ _ _ | .lmw _ _ _ | .stmw _ _ _ => 0xfc000000
  | .lbzx _ _ _ | .lbzux _ _ _ | .lhzx _ _ _ | .lhzux _ _ _ | .lhax _ _ _ | .lhaux _ _ _ | .lwzx _ _ _ | .lwzux _ _ _ | .stbx _ _ _
  | .stbux _ _ _ | .sthx _ _ _ | .sthux _ _ _ | .stwx _ _ _ | .stwux _ _ _ | .lhbrx _ _ _ | .lwbrx _ _ _ | .sthbrx _ _ _ | .stwbrx _ _ _
  | .lswi _ _ _ | .lswx _ _ _ | .stswi _ _ _ | .stswx _ _ _ => 0xfc0007ff

/-- The bytes of the instruction whose bits are `w`, bit 0 the least significant of its one 32-bit word; the bits from
`nbits` up are 0. -/
def tableBytes (nbits w : Nat) : List Byte := beBytes 4 (BitVec.ofNat 32 (w % 2 ^ nbits))

/-- The instruction the decoder reads from the bits `w` of an opcode-table row. -/
def decodeTableWord (nbits w : Nat) : Option Instr :=
  match decode (tableBytes nbits w) with
  | .ok i => some i
  | .error _ => none

end Sys2Proof
end

