-- ==== Sys2Proof/Machine/State.lean ====
section
/-!
DEFINITION. The state of the machine: the record of 10_state.md R17, with the launch parameters of 00_scope.md R4 and
the draw counter of the free values beside it; the exceptions a step can raise and the reasons it can be refused; the
launch state (70_reset_and_hazards.md R125) and the state after reset.
-/

namespace Sys2Proof.Machine

/-! ## Exceptions and refusals -/

/-- The exceptions of the model with the information each records (60_exceptions.md R110 to R114). A meaning records
one in `State.fault` (R113); `step` answers it as a fault from every later state, so that no run goes on after it. -/
inductive Fault where
  /-- DSI: a load or store touched a byte outside `mem_admit`. `addr` is the EA of a single item, the address of the
  failing word of lmw and stmw, of the failing byte of a string (R110). Raised by all 38 instructions. Safe: the chip
  takes this exception or is stopped where it could go on. -/
  | dsi (addr : Word)
  /-- Alignment: a misaligned half-word or word access under policy `fault`, or lmw or stmw with an EA that is no
  multiple of 4 (R111). Safe, as the chip may complete the access instead. -/
  | alignment (ea : Word)
  /-- FetchFault: the instruction at `pc` has a byte outside `mem_admit` (R112). Raised by the fetch. Safe. -/
  | fetchFault (pc : Word)
  /-- UnwrittenMemory: the byte at `addr` is admitted and holds no value (R114). Raised by loads and by the fetch. The
  chip has no such thing and reads some bits there. Safe. -/
  | unwrittenMemory (addr : Word)
deriving DecidableEq, Repr

/-- The reasons for which the model has no meaning to give (60_exceptions.md R118, its closed list). -/
inductive Refusal where
  /-- An arm of `exec` without a meaning. Raised by no arm of this model. Safe. -/
  | notModelled (mnemonic : String)
  /-- The word is none of the 38 instructions (30_encoding.md R43). Raised by the decoder. Safe. -/
  | notInScope (w : Word)
  /-- An invalid form, by its row of 30_encoding.md R42. Raised by the decoder for rows 3 and 5, by the meanings for
  the others. Safe: the spec says of no invalid form what it does. -/
  | invalidForm (row : InvalidRow)
  /-- The access, block or string of `n` bytes at `addr` would run past 0xFFFFFFFF (20_memory.md R24). Raised by every
  meaning before anything is moved. Safe: the spec does not say where the bytes go. -/
  | addressWrap (addr : Word) (n : Nat)
  /-- A store of this run has written a byte of the instruction at `pc` (20_memory.md R32). Raised by the fetch.
  Safe: the chip may fetch the old bytes or the new. -/
  | fetchOfModifiedCode (pc : Word)
  /-- The machine was launched in little-endian mode (20_memory.md R20, decision D3). Raised by the step. Safe. -/
  | littleEndianMode
  /-- The machine was launched with a pc that is no multiple of 4 (10_state.md R11). Raised by the step. Safe. -/
  | misalignedLaunchPc
deriving DecidableEq, Repr

/-- What `raise E(info)` records: the exception with its info, and the address of the raising instruction (R113). -/
structure Raised where
  reason : Fault
  pc : Word
deriving DecidableEq, Repr

/-- What `refuse reason` records (R118). -/
structure Refused where
  reason : Refusal
  pc : Word
deriving DecidableEq, Repr

/-! ## Launch parameters that a run never changes -/

/-- `size` consecutive addresses from `base`. -/
structure Region where
  base : Nat
  size : Nat
deriving DecidableEq, Repr

/-- `misaligned_policy` (00_scope.md R4; 20_memory.md R23; decision D4). -/
inductive MisalignedPolicy where
  /-- A misaligned half-word or word access raises Alignment. -/
  | fault
  /-- It completes byte by byte. -/
  | perform
deriving DecidableEq, Repr

/-- The byte order a run is launched in (20_memory.md R20). -/
inductive ByteOrder where
  | big
  | little
deriving DecidableEq, Repr

/-- The parameters of a launch that hold for the whole run (R18: inputs of the step, not state of the chip). They are
plain data of the state so that every value of them is covered (log 6). -/
structure Platform where
  /-- `mem_admit` (20_memory.md R28): the admitted addresses, as regions. -/
  memAdmit : List Region
  /-- `misaligned_policy` (R23). -/
  misalignedPolicy : MisalignedPolicy
  /-- `end_pc` (70_reset_and_hazards.md R127), or no end. -/
  endPc : Option Word
  /-- The byte order; the model runs big-endian only (R20). -/
  byteOrder : ByteOrder
deriving DecidableEq, Repr

/-! ## The state -/

/-- Memory: the bytes that hold a value, addresses strictly rising; an unlisted address holds "no value" (R17). -/
abbrev Memory := List Host.Cell

/-- The state of the machine (10_state.md R17). -/
structure State where
  /-- r0 to r31 (R10). -/
  gpr : Vector Word 32
  /-- The address of the instruction being executed (R11). -/
  pc : Word
  /-- XER_BC, the byte count of lswx and stswx (R13). -/
  xerBc : BitVec 7
  /-- The bytes of memory that hold a value (R15, R17). -/
  mem : Memory
  /-- `dirty_code`: the addresses a store has written since launch, strictly rising (R16). -/
  dirtyCode : List Nat
  /-- The exception that ended the run, if any (60_exceptions.md R113). -/
  fault : Option Raised
  /-- The refusal that ended the run, if any (60_exceptions.md R118). -/
  refused : Option Refused
  /-- The launch parameters (R18). -/
  platform : Platform
  /-- MODEL'S OWN: how many free values the run has drawn (log 3). -/
  draws : Nat
deriving DecidableEq, Repr

/-- The launch state of given parameters `pc0`, `gpr0`, `xer_bc0`, `mem0` (70_reset_and_hazards.md R125): nothing is
dirty, no fault and no refusal. `mem0` lists admitted bytes in the canonical form of `Memory`. -/
def State.launch (platform : Platform) (pc0 : Word) (gpr0 : Vector Word 32) (xerBc0 : BitVec 7) (mem0 : Memory) :
    State :=
  { gpr := gpr0, pc := pc0, xerBc := xerBc0, mem := mem0, dirtyCode := [], fault := none, refused := none,
    platform := platform, draws := 0 }

/-- The platform of reset: every address admitted (DESIGN CHOICE, log 6), the default policy of R4, no end (DESIGN
CHOICE, log 8), big-endian (R20). -/
def Platform.reset : Platform :=
  { memAdmit := [⟨0, addressSpace⟩], misalignedPolicy := .fault, endPc := none, byteOrder := .big }

/-- The machine right after reset. The spec states no reset value of a register (R17, R125): the pc is PRESUMED (log 4),
r0 to r31 and XER_BC are DESIGN CHOICES (log 1, log 2); memory lists nothing (R17). -/
def State.reset : State := .launch .reset 0x00000100 (Vector.replicate 32 0) 0 []

end Sys2Proof.Machine
end

