-- ==== Sys2Proof/Machine/Ops.lean ====
section
/-!
DEFINITION. The named operations over registers and memory, taking an exception, and the four shared operations the
meanings are written with: a single-item load, a single-item store, the load of a run of registers and the store of a
run of registers.
-/

namespace Sys2Proof.Machine

/-- What one instruction answers. -/
abbrev Out := Host.Outcome State Fault Refusal

/-! ## Registers and the pc -/

/-- `x[r]` (00_scope.md R7). No register is hard-wired: `x[0]` is a real register (10_state.md R10). -/
def State.reg (s : State) (r : Reg) : Word := s.gpr[r.toNat]

/-- `x[r] <- v` (00_scope.md R7). -/
def State.setReg (s : State) (r : Reg) (v : Word) : State := { s with gpr := s.gpr.set r.toNat v }

/-- `pc <- pc + 4`, modulo 2^32, of every instruction that completes (10_state.md R11). -/
def State.advance (s : State) : State := { s with pc := s.pc + 4 }

/-- The registers `r`, `r + 1`, ... take the words of a list, the run wrapping from r31 to r0
(45_load_store_string.md R98). -/
def State.setRun (s : State) (r : Reg) : List Word → State
  | [] => s
  | w :: ws => (s.setReg r w).setRun (r + 1) ws

/-! ## Memory -/

/-- The byte a memory holds at an address; `none` is "no value" (10_state.md R17). -/
def Memory.read (m : Memory) (a : Nat) : Option Byte :=
  match m with
  | [] => none
  | c :: m => if c.1 = a then some c.2 else Memory.read m a

/-- `mem[a] <- b`, keeping the addresses strictly rising. -/
def Memory.write (m : Memory) (a : Nat) (b : Byte) : Memory :=
  match m with
  | [] => [(a, b)]
  | c :: m =>
    if a < c.1 then (a, b) :: c :: m
    else if c.1 = a then (a, b) :: m
    else c :: Memory.write m a b

/-- The canonical form of a memory: addresses strictly rising, each inside the address space. Every entry differs
from what an unlisted address reads as, since that is no value at all. -/
def Memory.wf (m : Memory) : Bool :=
  match m with
  | [] => true
  | c :: m => decide (c.1 < addressSpace) && m.all (fun d => decide (c.1 < d.1)) && Memory.wf m

/-- A set of addresses with one more member, the list strictly rising. -/
def addrInsert (a : Nat) : List Nat → List Nat
  | [] => [a]
  | x :: xs => if a < x then a :: x :: xs else if x = a then x :: xs else x :: addrInsert a xs

/-- The canonical form of a set of addresses: strictly rising. -/
def addrsRising : List Nat → Bool
  | [] => true
  | x :: xs => xs.all (fun y => decide (x < y)) && addrsRising xs

/-- An address lies in a region. -/
def Region.covers (r : Region) (a : Nat) : Bool := decide (r.base ≤ a) && decide (a < r.base + r.size)

/-- `mem_admit` (20_memory.md R28, R29). -/
def State.admits (s : State) (a : Nat) : Bool := s.platform.memAdmit.any (·.covers a)

/-- `mem[a]`, or `none` where the byte holds no value (10_state.md R17). -/
def State.byteAt (s : State) (a : Nat) : Option Byte := Memory.read s.mem a

/-- `mem[a] <- b` by a store, which also marks the address dirty (20_memory.md R22). -/
def State.storeByte (s : State) (a : Nat) (b : Byte) : State :=
  { s with mem := Memory.write s.mem a b, dirtyCode := addrInsert a s.dirtyCode }

/-- Consecutive bytes stored from an address up, in ascending order (20_memory.md R22). -/
def State.storeBytes (s : State) (a : Nat) : List Byte → State
  | [] => s
  | b :: bs => (s.storeByte a b).storeBytes (a + 1) bs

/-! ## Taking an exception -/

/-- TAKING AN EXCEPTION, `raise E(info)` (60_exceptions.md R113; decision D6): the exception, its info and the pc of the
raising instruction are recorded and nothing else changes; the pc is not advanced. No later instruction executes: `step`
answers the recorded fault. There is no return from it, since no return instruction exists (R119). -/
def State.raise (s : State) (f : Fault) : State := { s with fault := some ⟨f, s.pc⟩ }

/-- `refuse reason` as it stands in the record of R17 (60_exceptions.md R118). The host's outcome of a refused step
carries the reason alone; this is the state it stops in (log 10). -/
def State.recordRefusal (s : State) (r : Refusal) : State := { s with refused := some ⟨r, s.pc⟩ }

/-! ## Access checks and reads -/

/-- An access of `n` bytes at `ea` would run past the top of the address space (20_memory.md R24). -/
def pastTop (ea : Word) (n : Nat) : Bool := decide (addressSpace < ea.toNat + n)

/-- A single half-word or word access raises Alignment (20_memory.md R23). -/
def State.misaligned (s : State) (ea : Word) (n : Nat) : Bool :=
  decide (1 < n) && decide (ea.toNat % n ≠ 0) && decide (s.platform.misalignedPolicy = .fault)

/-- The address of the item, of `g` bytes each from address `a`, that holds byte `k`: what a DSI records (60_exceptions.md
R110). With `g` the whole access it is `a` itself, with `g = 4` the word, with `g = 1` the byte. -/
def itemAddr (a g k : Nat) : Word := BitVec.ofNat 32 (a + g * (k / g))

/-- The admission of the bytes `k`, `k + 1`, ... of a block of items of `g` bytes at address `a` (20_memory.md R21, R22):
the DSI of the first byte that is not admitted. -/
def State.admissionFault (s : State) (a g k : Nat) : Nat → Option Fault
  | 0 => none
  | m + 1 => if s.admits (a + k) then s.admissionFault a g (k + 1) m else some (.dsi (itemAddr a g k))

/-- The values of the bytes from address `a` up, in ascending order: the first that holds none is UnwrittenMemory
(60_exceptions.md R114). -/
def State.byteValues (s : State) (a : Nat) : Nat → Except Fault (List Byte)
  | 0 => .ok []
  | m + 1 =>
    match s.byteAt a with
    | none => .error (.unwrittenMemory (BitVec.ofNat 32 a))
    | some b =>
      match s.byteValues (a + 1) m with
      | .ok bs => .ok (b :: bs)
      | .error f => .error f

/-- The bytes of one item of `n` bytes at address `a` (20_memory.md R21), the conditions in the order of 60_exceptions.md
R116, rows 2 and 2a, 10 and 11: a byte that is not admitted is DSI, and only then a byte without a value is
UnwrittenMemory (decision D6: "the order of checks is that of rule R116"; log 13). -/
def State.readItem (s : State) (a n : Nat) : Except Fault (List Byte) :=
  match s.admissionFault a n 0 n with
  | some f => .error f
  | none => s.byteValues a n

/-- The bytes of consecutive items of `g` bytes from address `a` up, each item read whole before the next
(44_load_store_multiple.md R91; 45_load_store_string.md R99, R100; 60_exceptions.md R116, "can follow earlier
transfers"). -/
def State.readItems (s : State) (a g : Nat) : Nat → Except Fault (List Byte)
  | 0 => .ok []
  | c + 1 =>
    match s.readItem a g with
    | .error f => .error f
    | .ok bs =>
      match s.readItems (a + g) g c with
      | .ok cs => .ok (bs ++ cs)
      | .error f => .error f

/-- `MemRead(ea, n)` of a single item (20_memory.md R21) after the wrap check: the item, zero-extended to 32 bits. -/
def State.memRead (s : State) (ea : Word) (n : Nat) : Except Fault Word :=
  if s.misaligned ea n then .error (.alignment ea)
  else
    match s.readItem ea.toNat n with
    | .ok bs => .ok (beWord bs)
    | .error f => .error f

/-! ## Single-item loads and stores -/

/-- A single-item access for a load (41_integer_load.md R51): AddressWrap is refused, a raise changes nothing but the
fault, and otherwise `k` of the item read is the next state before the pc advances. -/
def State.withItem (s : State) (ea : Word) (n : Nat) (k : Word → State) : Out :=
  if pastTop ea n then .refused (.addressWrap ea n)
  else
    match s.memRead ea n with
    | .ok v => .next (k v).advance
    | .error f => .next (s.raise f)

/-- Load without update: `x[rD] <- conv(MemRead(ea, n))` (R51). -/
def State.loadItem (s : State) (ea : Word) (n : Nat) (conv : Word → Word) (rD : Reg) : Out :=
  s.withItem ea n fun v => s.setReg rD (conv v)

/-- Load with update: then `x[rA] <- ea` (41_integer_load.md R52). -/
def State.loadItemUpdate (s : State) (ea : Word) (n : Nat) (conv : Word → Word) (rD rA : Reg) : Out :=
  s.withItem ea n fun v => (s.setReg rD (conv v)).setReg rA ea

/-- A single-item access for a store (42_integer_store.md R70), `MemWrite(ea, n, v)` of the low-order `n` bytes of `v`
(20_memory.md R22): all checks come before any byte is written, and otherwise `k` of the state after the store is the
next state before the pc advances. -/
def State.withStore (s : State) (ea : Word) (n : Nat) (v : Word) (k : State → State) : Out :=
  if pastTop ea n then .refused (.addressWrap ea n)
  else if s.misaligned ea n then .next (s.raise (.alignment ea))
  else
    match s.admissionFault ea.toNat n 0 n with
    | some f => .next (s.raise f)
    | none => .next (k (s.storeBytes ea.toNat (beBytes n v))).advance

/-- Store without update (R70). -/
def State.storeItem (s : State) (ea : Word) (n : Nat) (v : Word) : Out :=
  s.withStore ea n v fun t => t

/-- Store with update: then `x[rA] <- ea` (42_integer_store.md R71). -/
def State.storeItemUpdate (s : State) (ea : Word) (n : Nat) (v : Word) (rA : Reg) : Out :=
  s.withStore ea n v fun t => t.setReg rA ea

/-! ## Runs of registers (44_load_store_multiple.md, 45_load_store_string.md) -/

/-- Register `j` of a loaded run: bytes `4j` to `4j + 3` of the block from the most significant down, zero where the
block has ended (45_load_store_string.md R98). -/
def runWord (bs : List Byte) (j : Nat) : Word :=
  beWord [bs.getD (4 * j) 0, bs.getD (4 * j + 1) 0, bs.getD (4 * j + 2) 0, bs.getD (4 * j + 3) 0]

/-- The registers of a loaded run, `ceil(n / 4)` of them for a block of `n` bytes (R98). -/
def runWords (bs : List Byte) : List Word := (List.range (registerCount bs.length)).map (runWord bs)

/-- Byte `k` of a stored run that starts at register `r`: `x[reg(k)][31 - 8 pos(k) : 24 - 8 pos(k)]` (R98). -/
def State.runByte (s : State) (r : Reg) (k : Nat) : Byte :=
  (s.reg (r + BitVec.ofNat 5 (k / 4))).extractLsb' (24 - 8 * (k % 4)) 8

/-- The `n` bytes of a stored run (R98). -/
def State.runBytes (s : State) (r : Reg) (n : Nat) : List Byte := (List.range n).map (s.runByte r)

/-- The new value of register `j` of a run loaded from `n` bytes at `a`, where every byte of it can be read. -/
def State.newWord (s : State) (a n j : Nat) : Option Word :=
  match s.readItem (a + 4 * j) (min 4 (n - 4 * j)) with
  | .ok bs => some (runWord bs 0)
  | .error _ => none

/-- What register `j` of the run from `rD` holds when a load stops part-way: its old value or its new one, by draw
(44_load_store_multiple.md R94; 45_load_store_string.md R105). A register whose new value cannot be read keeps the old
one (log 14). -/
def State.drawnWord (s : State) (rD : Reg) (a n j : Nat) : Word :=
  match s.newWord a n j with
  | some v => if Config.drawNew (s.draws + j) then v else s.reg (rD + BitVec.ofNat 5 j)
  | none => s.reg (rD + BitVec.ofNat 5 j)

/-- The registers of a run after a load that stopped part-way (R94, R105). -/
def State.drawRun (s : State) (rD : Reg) (a n : Nat) : State :=
  { s.setRun rD ((List.range (registerCount n)).map (s.drawnWord rD a n)) with draws := s.draws + registerCount n }

/-- The bytes of a block after a store that stopped part-way: each admitted byte old or new by draw (R94, R105). `c` is
the draw of the first byte. -/
def State.drawBytes (s : State) (a c : Nat) : List Byte → State
  | [] => s
  | b :: bs => (if Config.drawNew c && s.admits a then s.storeByte a b else s).drawBytes (a + 1) (c + 1) bs

/-- The block of a stopped store, its draws counted. -/
def State.drawBlock (s : State) (a : Nat) (bs : List Byte) : State :=
  { s.drawBytes a s.draws bs with draws := s.draws + bs.length }

/-- The load of a run of registers from `n` bytes at `ea`, in items of `g` bytes (R91, R99, R100 after their checks). A
raise at any item leaves the run as `drawRun` says, everything else unchanged (R94, R105). -/
def State.loadRun (s : State) (rD : Reg) (ea : Word) (n g : Nat) : Out :=
  match s.readItems ea.toNat g (n / g) with
  | .ok bs => .next (s.setRun rD (runWords bs)).advance
  | .error f => .next ((s.drawRun rD ea.toNat n).raise f)

/-- The store of a run of registers to `n` bytes at `ea`, in items of `g` bytes (R92, R101, R102 after their checks). A
raise at any item leaves the block as `drawBlock` says, everything else unchanged (R94, R105). -/
def State.storeRun (s : State) (rS : Reg) (ea : Word) (n g : Nat) : Out :=
  match s.admissionFault ea.toNat g 0 n with
  | some f => .next ((s.drawBlock ea.toNat (s.runBytes rS n)).raise f)
  | none => .next (s.storeBytes ea.toNat (s.runBytes rS n)).advance

/-- The checks of lmw and stmw before the loop (R91, R92): the wrap of the whole block, then the alignment of EA, which
raises whatever the policy (44_load_store_multiple.md R93). -/
def State.withBlock (s : State) (ea : Word) (n : Nat) (k : Out) : Out :=
  if pastTop ea n then .refused (.addressWrap ea n)
  else if ea.toNat % 4 ≠ 0 then .next (s.raise (.alignment ea))
  else k

/-- The check of the string instructions before the loop: the wrap of the whole string (R99 to R102). -/
def withString (ea : Word) (n : Nat) (k : Out) : Out :=
  if pastTop ea n then .refused (.addressWrap ea n) else k

/-- lswx with a byte count of zero: rD takes a free value and no memory is read (45_load_store_string.md R100; decision
D18). -/
def State.loadUndefined (s : State) (rD : Reg) : Out :=
  .next ({ s.setReg rD (Config.drawWord s.draws) with draws := s.draws + 1 }).advance

/-! ## Loading a program from outside -/

/-- Bytes placed in memory from outside the machine (70_reset_and_hazards.md R125, `mem0`): no store, so nothing becomes
dirty. -/
def Memory.place (m : Memory) (a : Nat) : List Byte → Memory
  | [] => m
  | b :: bs => Memory.place (Memory.write m a b) (a + 1) bs

/-- Code placed at the pc from outside the machine: its bytes hold the given values, are admitted and are not dirty
(what 70_reset_and_hazards.md R126 asks of a launch). -/
def State.placeCode (s : State) (bs : List Byte) : State :=
  { s with
    mem := Memory.place s.mem s.pc.toNat bs
    dirtyCode := s.dirtyCode.filter fun a => !(decide (s.pc.toNat ≤ a) && decide (a < s.pc.toNat + bs.length))
    platform :=
      if (List.range bs.length).all fun k => s.admits (s.pc.toNat + k) then s.platform
      else { s.platform with memAdmit := ⟨s.pc.toNat, bs.length⟩ :: s.platform.memAdmit } }

end Sys2Proof.Machine
end

