-- ==== Sys2Proof/Machine/Operands.lean ====
section
/-!
DEFINITION. Operand forms: effective addresses (40_address_generation.md), the conversions of a loaded or stored item
(41_integer_load.md, 43_byte_reverse.md), byte counts, and the invalid-form tests the pseudocode of each rule makes
(30_encoding.md R42). No instruction has a flag to compute (10_state.md R12).
-/

namespace Sys2Proof.Machine

/-! ## Effective addresses: 32-bit sums, the carry dropped (R49) -/

/-- The sign-extended immediate index, `sext_32(d)` (R37, R47). -/
def displacement (d : BitVec 16) : Word := d.signExtend 32

/-- `(rA|0)`: zero when the field is 0, and r0 is then not read (R46). -/
def State.base (s : State) (rA : Reg) : Word := if rA = 0 then 0 else s.reg rA

/-- Register indirect with immediate index, `(rA|0) + d` (R47). -/
def State.eaD (s : State) (rA : Reg) (d : BitVec 16) : Word := s.base rA + displacement d

/-- Register indirect with index, `(rA|0) + (rB)`; rB is always read as a register (R48). -/
def State.eaX (s : State) (rA rB : Reg) : Word := s.base rA + s.reg rB

/-- Register indirect, `(rA|0)` (R50). -/
def State.eaI (s : State) (rA : Reg) : Word := s.base rA

/-- The update forms read rA whatever its number, `(rA) + d` (R46). -/
def State.eaDU (s : State) (rA : Reg) (d : BitVec 16) : Word := s.reg rA + displacement d

/-- The indexed update forms, `(rA) + (rB)` (R46, R48). -/
def State.eaXU (s : State) (rA rB : Reg) : Word := s.reg rA + s.reg rB

/-! ## Items -/

/-- "The remaining bits in rD are cleared" (R51): the item as it is, zero-extended. -/
def zeroExtended (v : Word) : Word := v

/-- "The remaining bits in rD are filled with a copy of the most significant bit of the loaded half word" (R61). -/
def halfAlgebraic (v : Word) : Word := (v.setWidth 16).signExtend 32

/-- `rev16` of the low-order half word, the rest cleared (43_byte_reverse.md R85). -/
def rev16 (v : Word) : Word := (v.extractLsb' 0 8 ++ v.extractLsb' 8 8).setWidth 32

/-- `rev32` (43_byte_reverse.md R85). -/
def rev32 (v : Word) : Word := v.extractLsb' 0 8 ++ v.extractLsb' 8 8 ++ v.extractLsb' 16 8 ++ v.extractLsb' 24 8

/-! ## Counts -/

/-- The length in bytes of the block of lmw and stmw, `4 (32 - rD)` (44_load_store_multiple.md R90). -/
def blockLength (r : Reg) : Nat := 4 * (32 - r.toNat)

/-- The byte count of lswi and stswi: `if NB = 0 then 32 else NB` (45_load_store_string.md R99, R101). -/
def byteCount (nb : BitVec 5) : Nat := if nb = 0 then 32 else nb.toNat

/-- Register `r` is among the registers a string of `n` bytes loads, `(rD + j) mod 32` for `0 <= j < ceil(n / 4)`
(45_load_store_string.md R103). -/
def inRun (rD : Reg) (n : Nat) (r : Reg) : Bool :=
  (List.range ((n + 3) / 4)).any fun j => r == rD + BitVec.ofNat 5 j

/-! ## Invalid forms -/

/-- Load with update: `if rA = 0 or rA = rD then refuse InvalidForm` (41_integer_load.md R52). -/
def unlessLoadUpdateInvalid (rD rA : Reg) (k : Out) : Out :=
  if rA = 0 ∨ rA = rD then .refused (.invalidForm .loadUpdate) else k

/-- Store with update: `if rA = 0 then refuse InvalidForm` (42_integer_store.md R71). -/
def unlessStoreUpdateInvalid (rA : Reg) (k : Out) : Out :=
  if rA = 0 then .refused (.invalidForm .storeUpdate) else k

end Sys2Proof.Machine
end

