-- ==== Sys2Proof/Machine/ByteReverse.lean ====
section
/-!
DEFINITION. The 4 byte-reverse instructions (43_byte_reverse.md R85 to R89), in the table's order.
-/

namespace Sys2Proof.Machine

/-- Load Half Word Byte-Reverse Indexed (R86): the half word at `(rA|0) + (rB)` with its two bytes exchanged, zero-extended, into rD. -/
def execLhbrx (rD rA rB : Reg) (s : State) : Out :=
  s.loadItem (s.eaX rA rB) 2 rev16 rD

/-- Load Word Byte-Reverse Indexed (R87): the word at `(rA|0) + (rB)` with its four bytes in the opposite order into rD. -/
def execLwbrx (rD rA rB : Reg) (s : State) : Out :=
  s.loadItem (s.eaX rA rB) 4 rev32 rD

/-- Store Half Word Byte-Reverse Indexed (R88): the low-order half word of rS, its two bytes exchanged, to `(rA|0) + (rB)`. -/
def execSthbrx (rS rA rB : Reg) (s : State) : Out :=
  s.storeItem (s.eaX rA rB) 2 (rev16 (s.reg rS))

/-- Store Word Byte-Reverse Indexed (R89): the word in rS, its four bytes in the opposite order, to `(rA|0) + (rB)`. -/
def execStwbrx (rS rA rB : Reg) (s : State) : Out :=
  s.storeItem (s.eaX rA rB) 4 (rev32 (s.reg rS))

end Sys2Proof.Machine
end

