-- ==== Sys2Proof/Machine/Load.lean ====
section
/-!
DEFINITION. The 16 integer load instructions (41_integer_load.md R51 to R68), in the table's order.
-/

namespace Sys2Proof.Machine

/-- Load Byte and Zero (R53): the byte at `(rA|0) + d`, zero-extended, into rD. -/
def execLbz (rD : Reg) (d : BitVec 16) (rA : Reg) (s : State) : Out :=
  s.loadItem (s.eaD rA d) 1 zeroExtended rD

/-- Load Byte and Zero Indexed (R54): the byte at `(rA|0) + (rB)`, zero-extended, into rD. -/
def execLbzx (rD rA rB : Reg) (s : State) : Out :=
  s.loadItem (s.eaX rA rB) 1 zeroExtended rD

/-- Load Byte and Zero with Update (R55): the byte at `(rA) + d`, zero-extended, into rD; the EA into rA. -/
def execLbzu (rD : Reg) (d : BitVec 16) (rA : Reg) (s : State) : Out :=
  unlessLoadUpdateInvalid rD rA (s.loadItemUpdate (s.eaDU rA d) 1 zeroExtended rD rA)

/-- Load Byte and Zero with Update Indexed (R56): the byte at `(rA) + (rB)`, zero-extended, into rD; the EA into rA. -/
def execLbzux (rD rA rB : Reg) (s : State) : Out :=
  unlessLoadUpdateInvalid rD rA (s.loadItemUpdate (s.eaXU rA rB) 1 zeroExtended rD rA)

/-- Load Half Word and Zero (R57): the half word at `(rA|0) + d`, zero-extended, into rD. -/
def execLhz (rD : Reg) (d : BitVec 16) (rA : Reg) (s : State) : Out :=
  s.loadItem (s.eaD rA d) 2 zeroExtended rD

/-- Load Half Word and Zero Indexed (R58): the half word at `(rA|0) + (rB)`, zero-extended, into rD. -/
def execLhzx (rD rA rB : Reg) (s : State) : Out :=
  s.loadItem (s.eaX rA rB) 2 zeroExtended rD

/-- Load Half Word and Zero with Update (R59): the half word at `(rA) + d`, zero-extended, into rD; the EA into rA. -/
def execLhzu (rD : Reg) (d : BitVec 16) (rA : Reg) (s : State) : Out :=
  unlessLoadUpdateInvalid rD rA (s.loadItemUpdate (s.eaDU rA d) 2 zeroExtended rD rA)

/-- Load Half Word and Zero with Update Indexed (R60): the half word at `(rA) + (rB)`, zero-extended, into rD; the EA into rA. -/
def execLhzux (rD rA rB : Reg) (s : State) : Out :=
  unlessLoadUpdateInvalid rD rA (s.loadItemUpdate (s.eaXU rA rB) 2 zeroExtended rD rA)

/-- Load Half Word Algebraic (R61): the half word at `(rA|0) + d`, sign-extended, into rD. -/
def execLha (rD : Reg) (d : BitVec 16) (rA : Reg) (s : State) : Out :=
  s.loadItem (s.eaD rA d) 2 halfAlgebraic rD

/-- Load Half Word Algebraic Indexed (R62): the half word at `(rA|0) + (rB)`, sign-extended, into rD. -/
def execLhax (rD rA rB : Reg) (s : State) : Out :=
  s.loadItem (s.eaX rA rB) 2 halfAlgebraic rD

/-- Load Half Word Algebraic with Update (R63): the half word at `(rA) + d`, sign-extended, into rD; the EA into rA. -/
def execLhau (rD : Reg) (d : BitVec 16) (rA : Reg) (s : State) : Out :=
  unlessLoadUpdateInvalid rD rA (s.loadItemUpdate (s.eaDU rA d) 2 halfAlgebraic rD rA)

/-- Load Half Word Algebraic with Update Indexed (R64): the half word at `(rA) + (rB)`, sign-extended, into rD; the EA into rA. -/
def execLhaux (rD rA rB : Reg) (s : State) : Out :=
  unlessLoadUpdateInvalid rD rA (s.loadItemUpdate (s.eaXU rA rB) 2 halfAlgebraic rD rA)

/-- Load Word and Zero (R65): the word at `(rA|0) + d`, whole, into rD. -/
def execLwz (rD : Reg) (d : BitVec 16) (rA : Reg) (s : State) : Out :=
  s.loadItem (s.eaD rA d) 4 zeroExtended rD

/-- Load Word and Zero Indexed (R66): the word at `(rA|0) + (rB)`, whole, into rD. -/
def execLwzx (rD rA rB : Reg) (s : State) : Out :=
  s.loadItem (s.eaX rA rB) 4 zeroExtended rD

/-- Load Word and Zero with Update (R67): the word at `(rA) + d`, whole, into rD; the EA into rA. -/
def execLwzu (rD : Reg) (d : BitVec 16) (rA : Reg) (s : State) : Out :=
  unlessLoadUpdateInvalid rD rA (s.loadItemUpdate (s.eaDU rA d) 4 zeroExtended rD rA)

/-- Load Word and Zero with Update Indexed (R68): the word at `(rA) + (rB)`, whole, into rD; the EA into rA. -/
def execLwzux (rD rA rB : Reg) (s : State) : Out :=
  unlessLoadUpdateInvalid rD rA (s.loadItemUpdate (s.eaXU rA rB) 4 zeroExtended rD rA)

end Sys2Proof.Machine
end

