-- ==== Sys2Proof/Machine/Multiple.lean ====
section
/-!
DEFINITION. Load and store multiple (44_load_store_multiple.md R90 to R95).
-/

namespace Sys2Proof.Machine

/-- Load Multiple Word (R91): the `32 - rD` words from `(rA|0) + d` into rD to r31; invalid with rA among rD to r31 (R95). -/
def execLmw (rD : Reg) (d : BitVec 16) (rA : Reg) (s : State) : Out :=
  if rD.toNat ≤ rA.toNat then .refused (.invalidForm .lmwRange)
  else s.withBlock (s.eaD rA d) (blockLength rD) (s.loadRun rD (s.eaD rA d) (blockLength rD) 4)

/-- Store Multiple Word (R92): the words in rS to r31 to `(rA|0) + d` and up. -/
def execStmw (rS : Reg) (d : BitVec 16) (rA : Reg) (s : State) : Out :=
  s.withBlock (s.eaD rA d) (blockLength rS) (s.storeRun rS (s.eaD rA d) (blockLength rS) 4)

end Sys2Proof.Machine
end

