-- ==== Sys2Proof/Machine/Store.lean ====
section
/-!
DEFINITION. The 12 integer store instructions (42_integer_store.md R70 to R84), in the table's order.
-/

namespace Sys2Proof.Machine

/-- Store Byte (R73): the low-order byte of rS to `(rA|0) + d`. -/
def execStb (rS : Reg) (d : BitVec 16) (rA : Reg) (s : State) : Out :=
  s.storeItem (s.eaD rA d) 1 (s.reg rS)

/-- Store Byte Indexed (R74): the low-order byte of rS to `(rA|0) + (rB)`. -/
def execStbx (rS rA rB : Reg) (s : State) : Out :=
  s.storeItem (s.eaX rA rB) 1 (s.reg rS)

/-- Store Byte with Update (R75): the low-order byte of rS to `(rA) + d`; the EA into rA. -/
def execStbu (rS : Reg) (d : BitVec 16) (rA : Reg) (s : State) : Out :=
  unlessStoreUpdateInvalid rA (s.storeItemUpdate (s.eaDU rA d) 1 (s.reg rS) rA)

/-- Store Byte with Update Indexed (R76): the low-order byte of rS to `(rA) + (rB)`; the EA into rA. -/
def execStbux (rS rA rB : Reg) (s : State) : Out :=
  unlessStoreUpdateInvalid rA (s.storeItemUpdate (s.eaXU rA rB) 1 (s.reg rS) rA)

/-- Store Half Word (R77): the low-order half word of rS to `(rA|0) + d`. -/
def execSth (rS : Reg) (d : BitVec 16) (rA : Reg) (s : State) : Out :=
  s.storeItem (s.eaD rA d) 2 (s.reg rS)

/-- Store Half Word Indexed (R78): the low-order half word of rS to `(rA|0) + (rB)`. -/
def execSthx (rS rA rB : Reg) (s : State) : Out :=
  s.storeItem (s.eaX rA rB) 2 (s.reg rS)

/-- Store Half Word with Update (R79): the low-order half word of rS to `(rA) + d`; the EA into rA. -/
def execSthu (rS : Reg) (d : BitVec 16) (rA : Reg) (s : State) : Out :=
  unlessStoreUpdateInvalid rA (s.storeItemUpdate (s.eaDU rA d) 2 (s.reg rS) rA)

/-- Store Half Word with Update Indexed (R80): the low-order half word of rS to `(rA) + (rB)`; the EA into rA. -/
def execSthux (rS rA rB : Reg) (s : State) : Out :=
  unlessStoreUpdateInvalid rA (s.storeItemUpdate (s.eaXU rA rB) 2 (s.reg rS) rA)

/-- Store Word (R81): the word in rS to `(rA|0) + d`. -/
def execStw (rS : Reg) (d : BitVec 16) (rA : Reg) (s : State) : Out :=
  s.storeItem (s.eaD rA d) 4 (s.reg rS)

/-- Store Word Indexed (R82): the word in rS to `(rA|0) + (rB)`. -/
def execStwx (rS rA rB : Reg) (s : State) : Out :=
  s.storeItem (s.eaX rA rB) 4 (s.reg rS)

/-- Store Word with Update (R83): the word in rS to `(rA) + d`; the EA into rA. -/
def execStwu (rS : Reg) (d : BitVec 16) (rA : Reg) (s : State) : Out :=
  unlessStoreUpdateInvalid rA (s.storeItemUpdate (s.eaDU rA d) 4 (s.reg rS) rA)

/-- Store Word with Update Indexed (R84): the word in rS to `(rA) + (rB)`; the EA into rA. -/
def execStwux (rS rA rB : Reg) (s : State) : Out :=
  unlessStoreUpdateInvalid rA (s.storeItemUpdate (s.eaXU rA rB) 4 (s.reg rS) rA)

end Sys2Proof.Machine
end

