-- ==== Sys2Proof/Machine/StringMove.lean ====
section
/-!
DEFINITION. Load and store string (45_load_store_string.md R97 to R105).
-/

namespace Sys2Proof.Machine

/-- Load String Word Immediate (R99): the `NB` bytes (32 where NB is 0) from `(rA|0)` into rD and the registers after it; invalid with rA
among them (R103). -/
def execLswi (rD rA : Reg) (nb : BitVec 5) (s : State) : Out :=
  if inRun rD (byteCount nb) rA then .refused (.invalidForm .lswiRange)
  else withString (s.eaI rA) (byteCount nb) (s.loadRun rD (s.eaI rA) (byteCount nb) 1)

/-- Load String Word Indexed (R100): the `XER_BC` bytes from `(rA|0) + (rB)` into rD and the registers after it; invalid with rD = rA or
rD = rB, or with rA or rB among the registers (R103); with no byte to load rD takes a free value. -/
def execLswx (rD rA rB : Reg) (s : State) : Out :=
  if rD = rA ∨ rD = rB then .refused (.invalidForm .lswxRange)
  else if inRun rD s.xerBc.toNat rA || inRun rD s.xerBc.toNat rB then .refused (.invalidForm .lswxRange)
  else if s.xerBc = 0 then s.loadUndefined rD
  else withString (s.eaX rA rB) s.xerBc.toNat (s.loadRun rD (s.eaX rA rB) s.xerBc.toNat 1)

/-- Store String Word Immediate (R101): `NB` bytes (32 where NB is 0) of rS and the registers after it to `(rA|0)`. -/
def execStswi (rS rA : Reg) (nb : BitVec 5) (s : State) : Out :=
  withString (s.eaI rA) (byteCount nb) (s.storeRun rS (s.eaI rA) (byteCount nb) 1)

/-- Store String Word Indexed (R102): `XER_BC` bytes of rS and the registers after it to `(rA|0) + (rB)`; none where the count is zero. -/
def execStswx (rS rA rB : Reg) (s : State) : Out :=
  withString (s.eaX rA rB) s.xerBc.toNat (s.storeRun rS (s.eaX rA rB) s.xerBc.toNat 1)

end Sys2Proof.Machine
end

