-- ==== Sys2Proof/Machine/Dispatch.lean ====
section
/-!
DEFINITION. One arm per constructor of Instr, each a direct call of the instruction's own meaning.
-/

namespace Sys2Proof.Machine

def exec (i : Instr) (s : State) : Host.Outcome State Fault Refusal :=
  match i with
  | .lbz rD d rA => Sys2Proof.Machine.execLbz rD d rA s
  | .lbzx rD rA rB => Sys2Proof.Machine.execLbzx rD rA rB s
  | .lbzu rD d rA => Sys2Proof.Machine.execLbzu rD d rA s
  | .lbzux rD rA rB => Sys2Proof.Machine.execLbzux rD rA rB s
  | .lhz rD d rA => Sys2Proof.Machine.execLhz rD d rA s
  | .lhzx rD rA rB => Sys2Proof.Machine.execLhzx rD rA rB s
  | .lhzu rD d rA => Sys2Proof.Machine.execLhzu rD d rA s
  | .lhzux rD rA rB => Sys2Proof.Machine.execLhzux rD rA rB s
  | .lha rD d rA => Sys2Proof.Machine.execLha rD d rA s
  | .lhax rD rA rB => Sys2Proof.Machine.execLhax rD rA rB s
  | .lhau rD d rA => Sys2Proof.Machine.execLhau rD d rA s
  | .lhaux rD rA rB => Sys2Proof.Machine.execLhaux rD rA rB s
  | .lwz rD d rA => Sys2Proof.Machine.execLwz rD d rA s
  | .lwzx rD rA rB => Sys2Proof.Machine.execLwzx rD rA rB s
  | .lwzu rD d rA => Sys2Proof.Machine.execLwzu rD d rA s
  | .lwzux rD rA rB => Sys2Proof.Machine.execLwzux rD rA rB s
  | .stb rS d rA => Sys2Proof.Machine.execStb rS d rA s
  | .stbx rS rA rB => Sys2Proof.Machine.execStbx rS rA rB s
  | .stbu rS d rA => Sys2Proof.Machine.execStbu rS d rA s
  | .stbux rS rA rB => Sys2Proof.Machine.execStbux rS rA rB s
  | .sth rS d rA => Sys2Proof.Machine.execSth rS d rA s
  | .sthx rS rA rB => Sys2Proof.Machine.execSthx rS rA rB s
  | .sthu rS d rA => Sys2Proof.Machine.execSthu rS d rA s
  | .sthux rS rA rB => Sys2Proof.Machine.execSthux rS rA rB s
  | .stw rS d rA => Sys2Proof.Machine.execStw rS d rA s
  | .stwx rS rA rB => Sys2Proof.Machine.execStwx rS rA rB s
  | .stwu rS d rA => Sys2Proof.Machine.execStwu rS d rA s
  | .stwux rS rA rB => Sys2Proof.Machine.execStwux rS rA rB s
  | .lhbrx rD rA rB => Sys2Proof.Machine.execLhbrx rD rA rB s
  | .lwbrx rD rA rB => Sys2Proof.Machine.execLwbrx rD rA rB s
  | .sthbrx rS rA rB => Sys2Proof.Machine.execSthbrx rS rA rB s
  | .stwbrx rS rA rB => Sys2Proof.Machine.execStwbrx rS rA rB s
  | .lmw rD d rA => Sys2Proof.Machine.execLmw rD d rA s
  | .stmw rS d rA => Sys2Proof.Machine.execStmw rS d rA s
  | .lswi rD rA nb => Sys2Proof.Machine.execLswi rD rA nb s
  | .lswx rD rA rB => Sys2Proof.Machine.execLswx rD rA rB s
  | .stswi rS rA nb => Sys2Proof.Machine.execStswi rS rA nb s
  | .stswx rS rA rB => Sys2Proof.Machine.execStswx rS rA rB s

end Sys2Proof.Machine
end

