-- ==== Sys2Proof/Machine/Fetch.lean ====
section
/-!
DEFINITION. What the next step does: whether the run has stopped, the fetch of the instruction at the pc (20_memory.md
R32), and its decoding (30_encoding.md R40), in the order of 60_exceptions.md R116.
-/

namespace Sys2Proof.Machine

/-- What a step is about to do. -/
inductive Issue where
  /-- The run has ended in this fault (60_exceptions.md R113). -/
  | halted (f : Fault)
  /-- The step is refused (60_exceptions.md R118). -/
  | refuse (r : Refusal)
  /-- The state is final and nothing is fetched (70_reset_and_hazards.md R127). -/
  | final
  /-- The fetch raises (60_exceptions.md R112). -/
  | raise (f : Fault)
  /-- The instruction at the pc. -/
  | run (i : Instr)
deriving DecidableEq, Repr

/-- The refusal of a word the decoder rejects (R42, R43). -/
def decodeRefusal : DecodeError → Refusal
  | .notInScope w => .notInScope w
  | .invalidForm row => .invalidForm row

/-- An exception of the fetch: a DSI there is FetchFault(pc) (60_exceptions.md R112). -/
def State.fetchException (s : State) : Fault → Fault
  | .dsi _ => .fetchFault s.pc
  | f => f

/-- Some byte of the instruction at the pc has been written by a store (20_memory.md R32). -/
def State.codeDirty (s : State) : Bool := (List.range 4).any fun k => s.dirtyCode.contains (s.pc.toNat + k)

/-- `fetch(pc)` (20_memory.md R32) and `decode` (30_encoding.md R40). -/
def State.fetch (s : State) : Issue :=
  if s.codeDirty then .refuse (.fetchOfModifiedCode s.pc)
  else
    match s.readItem s.pc.toNat 4 with
    | .error f => .raise (s.fetchException f)
    | .ok bs =>
      match decode bs with
      | .ok i => .run i
      | .error e => .refuse (decodeRefusal e)

/-- A state is final: `pc = end_pc`, no fault, no refusal (70_reset_and_hazards.md R127). -/
def State.isFinal (s : State) : Bool :=
  decide (s.platform.endPc = some s.pc) && s.fault.isNone && s.refused.isNone

/-- What the next step does. A run that has ended in a fault or a refusal goes no further (R113, R118); a launch in
little-endian mode or with a misaligned pc is refused (20_memory.md R20; 10_state.md R11); a final state fetches
nothing (R127). -/
def State.issue (s : State) : Issue :=
  match s.fault, s.refused with
  | some f, _ => .halted f.reason
  | none, some r => .refuse r.reason
  | none, none =>
    if s.platform.byteOrder = .little then .refuse .littleEndianMode
    else if s.pc.toNat % 4 ≠ 0 then .refuse .misalignedLaunchPc
    else if s.isFinal then .final
    else s.fetch

end Sys2Proof.Machine
end

