-- ==== Sys2Proof/Machine/Step.lean ====
section
/-!
DEFINITION. One step of the machine (10_state.md R19; 60_exceptions.md R116), and the state with an instruction placed
where the next step fetches.
-/

namespace Sys2Proof.Machine

/-- One step: the instruction at the pc executes, or the run has ended. A final state is its own next state (log 8). -/
def step (s : State) : Host.Outcome State Fault Refusal :=
  match s.issue with
  | .halted f => .fault f
  | .refuse r => .refused r
  | .final => .next s
  | .raise f => .next (s.raise f)
  | .run i => exec i s

/-- `s` with the instruction of bits `w` placed at the pc, as a load from outside the machine (log 17): its four bytes
in memory, big-endian, admitted and not dirty. A run that has ended, or a launch that is refused, stays so. -/
def State.withFetchWord (s : State) (nbits w : Nat) : State := s.placeCode (tableBytes nbits w)

end Sys2Proof.Machine
end

