-- ==== Sys2Proof/Safety.lean ====
section
/-!
DEFINITION. What counts as a safe run and as a well-formed state, in the terms the claims use.
-/

namespace Sys2Proof.Machine

/-- The run has not ended: no fault and no refusal is recorded, and the state is not final (60_exceptions.md R113,
R118; 70_reset_and_hazards.md R127). -/
def State.running (s : State) : Bool := s.fault.isNone && s.refused.isNone && !s.isFinal

/-- The record of 10_state.md R17 after a step from `s` that answered `o`: a refused step records its reason and the
pc (60_exceptions.md R118); a run that has ended stays where it is. -/
def State.settle (s : State) (o : Host.Outcome State Fault Refusal) : State :=
  match o with
  | .next t => t
  | .fault _ => s
  | .refused r => if s.refused.isSome then s else s.recordRefusal r

/-- The record of R17 after `k` steps of a run. -/
def State.after : Nat → State → State
  | 0, s => s
  | k + 1, s => State.after k (s.settle (step s))

/-- A run that reaches a final state within `k` steps (R127): its claims never rest on a faulted or refused state. -/
def State.completes (k : Nat) (s : State) : Prop := (State.after k s).isFinal = true

/-- THE INVARIANT of the machine's states: memory and `dirty_code` are in canonical form; only admitted bytes hold a
value (10_state.md R17, `mem[a]` "for each admitted address a"); a byte a store has written holds a value (20_memory.md
R22); the pc is a multiple of 4 (10_state.md R11); a recorded fault is the current pc's (60_exceptions.md R113). -/
abbrev State.Inv (s : State) : Prop :=
  Memory.wf s.mem = true ∧
  addrsRising s.dirtyCode = true ∧
  (∀ c ∈ s.mem, s.admits c.1 = true) ∧
  (∀ a ∈ s.dirtyCode, (s.byteAt a).isSome = true) ∧
  s.pc.toNat % 4 = 0 ∧
  (∀ f ∈ s.fault, f.pc = s.pc)

end Sys2Proof.Machine
end

