-- ==== Sys2Proof/Certificates/Slice0/Obligations.lean ====
section
/-!
DEFINITION. The statements for the provers. First the words they are written in, then the statements, in the order
encoding, step, addressing, results, exceptions, refusals, frames, whole-machine rules, equivalences.
-/

namespace Sys2Proof.Claims

open Sys2Proof.Machine

/-! ## The words of the statements -/

/-- The bytes from address `a` up are admitted and hold the values of the list. -/
def holdsBytes (s : State) (a : Nat) : List Byte → Bool
  | [] => true
  | b :: bs => s.admits a && (s.byteAt a == some b) && holdsBytes s (a + 1) bs

/-- The `n` bytes from address `a` up are admitted. -/
def admitted (s : State) (a n : Nat) : Bool := (List.range n).all fun k => s.admits (a + k)

/-- Byte `k` of the `n` at `a` is the first that is not admitted. -/
def firstUnadmitted (s : State) (a n k : Nat) : Bool :=
  decide (k < n) && admitted s a k && !s.admits (a + k)

/-- The `n` bytes from address `a` up are all admitted, and byte `k` is the first of them that holds no value. -/
def firstValueless (s : State) (a n k : Nat) : Bool :=
  decide (k < n) && admitted s a n && ((List.range k).all fun j => (s.byteAt (a + j)).isSome) && (s.byteAt (a + k)).isNone

/-- The `n` bytes from address `a` up are admitted and hold values. -/
def readable (s : State) (a n : Nat) : Bool := (List.range n).all fun j => s.admits (a + j) && (s.byteAt (a + j)).isSome

/-- The item of `g` bytes at `a` cannot be read, and `f` is why: DSI of the item where a byte of it is not admitted,
else UnwrittenMemory of its first byte without a value (60_exceptions.md R116). -/
def itemRaises (s : State) (a : Word) (g : Nat) (f : Fault) : Prop :=
  (admitted s a.toNat g = false ∧ f = .dsi a) ∨
  (∃ k, firstValueless s a.toNat g k = true ∧ f = .unwrittenMemory (a + BitVec.ofNat 32 k))

/-- The `n` bytes at `ea` end inside the address space (20_memory.md R24). -/
def fits (ea : Word) (n : Nat) : Bool := decide (ea.toNat + n ≤ 4294967296)

/-- An access of `n` bytes at `ea` is aligned, or the policy performs it all the same (20_memory.md R23). -/
def alignedOrPerformed (s : State) (ea : Word) (n : Nat) : Bool :=
  decide (ea.toNat % n = 0) || decide (s.platform.misalignedPolicy = .perform)

/-- The state after a completed load of `v` into rD: nothing but rD and the pc changes. -/
def loaded (s : State) (rD : Reg) (v : Word) : State :=
  { s with gpr := s.gpr.set rD.toNat v, pc := s.pc + 4 }

/-- The state after a completed load with update: nothing but rD, rA and the pc changes. -/
def loadedUpdate (s : State) (rD : Reg) (v : Word) (rA : Reg) (ea : Word) : State :=
  { s with gpr := (s.gpr.set rD.toNat v).set rA.toNat ea, pc := s.pc + 4 }

/-- The state after a raise that changes nothing else: the exception and the pc are recorded (60_exceptions.md R113). -/
def raisedOnly (s : State) (f : Fault) : State := { s with fault := some ⟨f, s.pc⟩ }

/-- XER_BC, the launch parameters and the recorded refusal are as before. -/
def sameControl (s t : State) : Prop := t.xerBc = s.xerBc ∧ t.platform = s.platform ∧ t.refused = s.refused

/-- No register, byte of memory, dirty mark, parameter or count of draws changes, and no refusal appears. -/
def sameButPcAndFault (s t : State) : Prop := ∃ pc fault, t = { s with pc := pc, fault := fault }

/-- The bytes `bs` stand from address `a` up, every other byte is as before, and the dirty addresses are those of
before and these (20_memory.md R22). -/
def stored (s t : State) (a : Nat) (bs : List Byte) : Prop :=
  (∀ x, t.byteAt x = if a ≤ x ∧ x < a + bs.length then bs[x - a]? else s.byteAt x) ∧
  (∀ x, x ∈ t.dirtyCode ↔ x ∈ s.dirtyCode ∨ (a ≤ x ∧ x < a + bs.length))

/-- A completed store of `bs` at `a`: the registers are `gpr`, the pc has advanced, everything else is as before. -/
def storeCompletes (s t : State) (gpr : Vector Word 32) (a : Nat) (bs : List Byte) : Prop :=
  stored s t a bs ∧ t.gpr = gpr ∧ t.pc = s.pc + 4 ∧ t.fault = s.fault ∧ t.draws = s.draws ∧ sameControl s t

/-- The two low-order bytes of a word, the more significant first. -/
def halfBytes (v : Word) : List Byte := [v.extractLsb' 8 8, v.extractLsb' 0 8]

/-- The four bytes of a word, the most significant first. -/
def wordBytes (v : Word) : List Byte :=
  [v.extractLsb' 24 8, v.extractLsb' 16 8, v.extractLsb' 8 8, v.extractLsb' 0 8]

/-- Word `j` of a block of bytes, the first byte of it the most significant, zero where the block has ended
(45_load_store_string.md R98). -/
def blockWord (bs : List Byte) (j : Nat) : Word :=
  bs.getD (4 * j) 0 ++ bs.getD (4 * j + 1) 0 ++ bs.getD (4 * j + 2) 0 ++ bs.getD (4 * j + 3) 0

/-- Byte `k` of the string in the registers from `r` on: `x[reg(k)][31 - 8 pos(k) : 24 - 8 pos(k)]`
(45_load_store_string.md R98). -/
def stringByte (s : State) (r : Reg) (k : Nat) : Byte :=
  (s.reg (r + BitVec.ofNat 5 (k / 4))).extractLsb' (24 - 8 * (k % 4)) 8

/-- The first `n` bytes of the string in the registers from `r` on. -/
def stringBytes (s : State) (r : Reg) (n : Nat) : List Byte := (List.range n).map (stringByte s r)

/-- A completed load of the block `bs` into the registers from rD on: register `(rD + j) mod 32` of the run holds word
`j`, every other register is as before, and nothing else but the pc changes. -/
def runLoaded (s t : State) (rD : Reg) (bs : List Byte) : Prop :=
  (∀ j, j < registerCount bs.length → t.reg (rD + BitVec.ofNat 5 j) = blockWord bs j) ∧
  (∀ q, registerRunHas rD (registerCount bs.length) q = false → t.reg q = s.reg q) ∧
  t = { s with gpr := t.gpr, pc := s.pc + 4 }

/-- The run-time overlap of lswx: rA or rB is among the registers XER_BC makes it load (45_load_store_string.md R100,
R103). -/
def lswxOverlap (s : State) (rD rA rB : Reg) : Bool :=
  registerRunHas rD (registerCount s.xerBc.toNat) rA || registerRunHas rD (registerCount s.xerBc.toNat) rB

/-- lmw's and stmw's block length in bytes, `4 (32 - r)` (44_load_store_multiple.md R90). -/
def multipleLength (r : Reg) : Nat := 4 * (32 - r.toNat)

/-- The ten single-item loads without update, each with its EA and its width in bytes. -/
def plainLoads (s : State) (rD rA rB : Reg) (d : BitVec 16) : List (Instr × Word × Nat) :=
  [(.lbz rD d rA, s.eaD rA d, 1), (.lbzx rD rA rB, s.eaX rA rB, 1), (.lhz rD d rA, s.eaD rA d, 2),
   (.lhzx rD rA rB, s.eaX rA rB, 2), (.lha rD d rA, s.eaD rA d, 2), (.lhax rD rA rB, s.eaX rA rB, 2),
   (.lwz rD d rA, s.eaD rA d, 4), (.lwzx rD rA rB, s.eaX rA rB, 4), (.lhbrx rD rA rB, s.eaX rA rB, 2),
   (.lwbrx rD rA rB, s.eaX rA rB, 4)]

/-- The eight loads with update. -/
def updateLoads (s : State) (rD rA rB : Reg) (d : BitVec 16) : List (Instr × Word × Nat) :=
  [(.lbzu rD d rA, s.eaDU rA d, 1), (.lbzux rD rA rB, s.eaXU rA rB, 1), (.lhzu rD d rA, s.eaDU rA d, 2),
   (.lhzux rD rA rB, s.eaXU rA rB, 2), (.lhau rD d rA, s.eaDU rA d, 2), (.lhaux rD rA rB, s.eaXU rA rB, 2),
   (.lwzu rD d rA, s.eaDU rA d, 4), (.lwzux rD rA rB, s.eaXU rA rB, 4)]

/-- The eight single-item stores without update. -/
def plainStores (s : State) (rS rA rB : Reg) (d : BitVec 16) : List (Instr × Word × Nat) :=
  [(.stb rS d rA, s.eaD rA d, 1), (.stbx rS rA rB, s.eaX rA rB, 1), (.sth rS d rA, s.eaD rA d, 2),
   (.sthx rS rA rB, s.eaX rA rB, 2), (.stw rS d rA, s.eaD rA d, 4), (.stwx rS rA rB, s.eaX rA rB, 4),
   (.sthbrx rS rA rB, s.eaX rA rB, 2), (.stwbrx rS rA rB, s.eaX rA rB, 4)]

/-- The six stores with update. -/
def updateStores (s : State) (rS rA rB : Reg) (d : BitVec 16) : List (Instr × Word × Nat) :=
  [(.stbu rS d rA, s.eaDU rA d, 1), (.stbux rS rA rB, s.eaXU rA rB, 1), (.sthu rS d rA, s.eaDU rA d, 2),
   (.sthux rS rA rB, s.eaXU rA rB, 2), (.stwu rS d rA, s.eaDU rA d, 4), (.stwux rS rA rB, s.eaXU rA rB, 4)]

/-- The loads of a run of registers, each with its EA, its length in bytes and the width of one item. -/
def runLoads (s : State) (rD rA rB : Reg) (d : BitVec 16) (nb : BitVec 5) : List (Instr × Word × Nat × Nat) :=
  [(.lmw rD d rA, s.eaD rA d, multipleLength rD, 4), (.lswi rD rA nb, s.eaI rA, immediateCount nb, 1),
   (.lswx rD rA rB, s.eaX rA rB, s.xerBc.toNat, 1)]

/-- The stores of a run of registers, each with its EA, its length in bytes and the width of one item. -/
def runStores (s : State) (rS rA rB : Reg) (d : BitVec 16) (nb : BitVec 5) : List (Instr × Word × Nat × Nat) :=
  [(.stmw rS d rA, s.eaD rA d, multipleLength rS, 4), (.stswi rS rA nb, s.eaI rA, immediateCount nb, 1),
   (.stswx rS rA rB, s.eaX rA rB, s.xerBc.toNat, 1)]

/-- No invalid form: by its fields (30_encoding.md R42), nor by the overlap of lswx at run time (R103). -/
def valid (s : State) (i : Instr) : Bool :=
  i.wellFormed && match i with
    | .lswx rD rA rB => !lswxOverlap s rD rA rB
    | _ => true

/-- What an instruction's block needs of its address: lmw and stmw need a multiple of 4 (44_load_store_multiple.md
R93), the string instructions nothing (45_load_store_string.md R97). -/
def blockAligned (ea : Word) (g : Nat) : Bool := decide (ea.toNat % g = 0)

/-- Instructions executed one after the other, stopping where one does not answer a next state. -/
def execAll : List Instr → State → Host.Outcome State Fault Refusal
  | [], s => .next s
  | i :: is, s =>
    match exec i s with
    | .next t => execAll is t
    | .fault f => .fault f
    | .refused r => .refused r

/-- A state from which the next step fetches: nothing has ended the run, the byte order is big-endian, the pc is a
multiple of 4 and is not `end_pc`. -/
def fetches (s : State) : Bool :=
  s.running && decide (s.platform.byteOrder = .big) && decide (s.pc.toNat % 4 = 0)

/-- No byte of the instruction at the pc is dirty. -/
def codeClean (s : State) : Bool := (List.range 4).all fun k => !s.dirtyCode.contains (s.pc.toNat + k)

/-- An instruction without update, then the EA into rA where it completed: what the update form does. -/
def thenUpdate (s : State) (rA : Reg) (ea : Word) : Host.Outcome State Fault Refusal → Host.Outcome State Fault Refusal
  | .next t => if t.pc = s.pc then .next t else .next { t with gpr := t.gpr.set rA.toNat ea }
  | .fault f => .fault f
  | .refused r => .refused r

/-- The X-form stores (30_encoding.md R41). -/
def isIndexedStore : Instr → Bool
  | .stbx _ _ _ | .stbux _ _ _ | .sthx _ _ _ | .sthux _ _ _ | .stwx _ _ _ | .stwux _ _ _
  | .sthbrx _ _ _ | .stwbrx _ _ _ | .stswi _ _ _ | .stswx _ _ _ => true
  | _ => false

/-- The mask of a row without bit 0 of the X-form (30_encoding.md R41). -/
def rowMaskButRc (j : Instr) : Word := if rowMask j = 0xfc0007ff then 0xfc0007fe else rowMask j

end Sys2Proof.Claims

open Sys2Proof Sys2Proof.Machine Sys2Proof.Claims

/-! ## Encoding -/

/-- Decoding the bytes of an instruction gives the instruction, for all 38 with every operand at every value
(30_encoding.md R35 to R40; the opcode numbers are log 16's). -/
def Obligations.DecodeOfEncodeIsTheInstruction : Prop :=
  ∀ i : Instr, decode (encodeBytes i) = .ok i ∧ decodeTableWord 32 (encode i).toNat = some i

/-- Each word has one meaning: a word that decodes to an instruction is that instruction's word (R35 to R40; log 16). -/
def Obligations.DecodedWordIsItsEncoding : Prop :=
  ∀ (w : Word) (i : Instr), decodeWord w = .ok i → encode i = w

/-- A word is the instruction of a row of the opcode table exactly when, masked, it is the row's match (R38, R39; log 16). -/
def Obligations.WordIsTheRowIffMaskedMatch : Prop :=
  ∀ (w : Word) (j : Instr),
    (∃ i, decodeWord w = .ok i ∧ rowMatch i = rowMatch j) ↔ w &&& rowMask j = rowMatch j

/-- A word that agrees with an X-form row but for bit 0 set is the invalid form of that row's instruction, a store's by
row 3 and a load's by row 5 (decision D17, log 15); a D-form word decodes whatever its bit 0; XO 150 with bit 0 set is no
store in scope (R41). -/
def Obligations.SetRcBitIsTheInvalidFormOfItsRow : Prop :=
  (∀ (w : Word) (j : Instr), rowMask j = 0xfc0007ff → w &&& 0xfc0007fe = rowMatch j → w.getLsbD 0 = true →
    decodeWord w = .error (.invalidForm
      (if isIndexedStore j then .storeRc else .loadRc))) ∧
  (∀ (w : Word) (j : Instr), rowMask j = 0xfc000000 → w &&& 0xfc000000 = rowMatch j →
    ∃ i, decodeWord w = .ok i ∧ rowMatch i = rowMatch j) ∧
  (∀ (r rA rB : Reg), decodeWord (xWord r rA rB 150 ||| 1) = .error (.notInScope (xWord r rA rB 150 ||| 1)))

/-- A word that agrees with no row, even with bit 0 cleared, is NotInScope (R40, R43). -/
def Obligations.OtherWordsAreNotInScope : Prop :=
  ∀ w : Word, (∀ j : Instr, w &&& rowMaskButRc j ≠ rowMatch j) →
    decodeWord w = .error (.notInScope w)

/-- Words written out from 30_encoding.md R35 to R39 decode to the instructions they stand for, one of each family, and
words of R41 and R43 are rejected (log 16). -/
def Obligations.SampleWordsDecode : Prop :=
  decodeWord 0x88640005 = .ok (.lbz 3 5 4) ∧
  decodeWord 0x7c642b6e = .ok (.sthux 3 4 5) ∧
  decodeWord 0x7c642c2c = .ok (.lwbrx 3 4 5) ∧
  decodeWord 0xbfa1fff4 = .ok (.stmw 29 0xfff4 1) ∧
  decodeWord 0x7ca43caa = .ok (.lswi 5 4 7) ∧
  decodeWord 0x7c64282f = .error (.invalidForm .loadRc) ∧
  decodeWord 0x38600001 = .error (.notInScope 0x38600001)

/-! ## The step -/

/-- A step runs the instruction that the four bytes at the pc decode to; the step adds nothing to it. -/
def Obligations.StepRunsTheDecodedInstruction : Prop :=
  ∀ (s : State) (bs : List Byte) (i : Instr),
    fetches s = true → codeClean s = true → bs.length = 4 → holdsBytes s s.pc.toNat bs = true → decode bs = .ok i →
    Machine.step s = exec i s

/-- A fetch with a byte written by a store is refused, whatever the byte holds (20_memory.md R32, decision D12, log
19). -/
def Obligations.FetchOfAStoredByteIsRefused : Prop :=
  ∀ s : State, fetches s = true → codeClean s = false → Machine.step s = .refused (.fetchOfModifiedCode s.pc)

/-- A fetch with a byte that is not admitted raises FetchFault(pc), and with all four admitted and one without a value
UnwrittenMemory of the first such byte; nothing but the fault changes, as log 9 has a raise (60_exceptions.md R112, R114,
and R116 rows 2 and 2a in their order, log 13). -/
def Obligations.FetchRaises : Prop :=
  ∀ s : State, fetches s = true → codeClean s = true →
    (admitted s s.pc.toNat 4 = false → Machine.step s = .next (raisedOnly s (.fetchFault s.pc))) ∧
    (∀ k, firstValueless s s.pc.toNat 4 k = true →
      Machine.step s = .next (raisedOnly s (.unwrittenMemory (s.pc + BitVec.ofNat 32 k))))

/-- A word that does not decode is refused by the reason of 30_encoding.md R40: NotInScope or the invalid form of its
row. -/
def Obligations.UndecodableWordIsRefused : Prop :=
  ∀ (s : State) (bs : List Byte), fetches s = true → codeClean s = true → bs.length = 4 →
    holdsBytes s s.pc.toNat bs = true →
    (∀ w, decode bs = .error (.notInScope w) → Machine.step s = .refused (.notInScope w)) ∧
    (∀ row, decode bs = .error (.invalidForm row) → Machine.step s = .refused (.invalidForm row))

/-- A run that has ended stays ended: after a recorded fault, in any state, every step is that fault and is no final
state; after a recorded refusal every step is that refusal (60_exceptions.md R113, R118; how a fault and a refusal are
answered and recorded is the model's choice, logs 9 and 10). -/
def Obligations.EndedRunsStayEnded : Prop :=
  ∀ s : State,
    (∀ f, s.fault = some f → Machine.step s = .fault f.reason ∧ s.isFinal = false) ∧
    (∀ r, s.fault = none → s.refused = some r → Machine.step s = .refused r.reason ∧ s.isFinal = false) ∧
    (∀ r, s.fault = none → s.refused = none → Machine.step s = .refused r →
      (s.settle (Machine.step s)).refused = some ⟨r, s.pc⟩ ∧
      Machine.step (s.settle (Machine.step s)) = .refused r)

/-- The model's choice for the end of a run (log 8): a final state fetches nothing and is its own next state, whatever
stands at its pc. -/
def Obligations.FinalStateFetchesNothing : Prop :=
  ∀ s : State, s.platform.byteOrder = .big → s.pc.toNat % 4 = 0 → s.isFinal = true → Machine.step s = .next s

/-- A launch in little-endian mode or with a misaligned pc is refused (20_memory.md R20; 10_state.md R11; at the first
step, logs 11 and 12). -/
def Obligations.LaunchesOutsideTheModelAreRefused : Prop :=
  ∀ (p : Platform) (pc0 : Word) (gpr0 : Vector Word 32) (xer : BitVec 7) (mem0 : Memory),
    (p.byteOrder = .little → Machine.step (.launch p pc0 gpr0 xer mem0) = .refused .littleEndianMode) ∧
    (p.byteOrder = .big → pc0.toNat % 4 ≠ 0 →
      Machine.step (.launch p pc0 gpr0 xer mem0) = .refused .misalignedLaunchPc)

/-- The launch state (10_state.md R17, R125): the launch parameters are the registers and memory, nothing is dirty, and
neither a fault nor a refusal is recorded. The spec's model does not start from reset (R125): that State.reset is a
launch whose memory lists nothing (log 5) and whose policy is the default of 00_scope.md R4 (log 7) is the model's
choice. -/
def Obligations.LaunchStateIsTheRecord : Prop :=
  (∀ (p : Platform) (pc0 : Word) (gpr0 : Vector Word 32) (xer : BitVec 7) (mem0 : Memory),
    let s := State.launch p pc0 gpr0 xer mem0
    s.pc = pc0 ∧ s.gpr = gpr0 ∧ s.xerBc = xer ∧ s.mem = mem0 ∧ s.platform = p ∧ s.dirtyCode = [] ∧ s.fault = none ∧
      s.refused = none) ∧
  (∃ p pc0 gpr0 xer, State.reset = .launch p pc0 gpr0 xer []) ∧
  (∀ a, State.reset.byteAt a = none) ∧
  State.reset.platform.misalignedPolicy = .fault

/-! ## Addressing -/

/-- `(rA|0)` in all three modes: the test is on the field; with rA = 0 zero stands in place of the contents of r0,
whatever r0 holds, and otherwise the register is read; the update forms read the register whatever its number, which
makes no difference where rA is not 0 (40_address_generation.md R46). -/
def Obligations.BaseIsZeroOrTheRegister : Prop :=
  ∀ (s : State) (rA rB : Reg) (d : BitVec 16) (v : Word),
    s.base rA = (if rA = 0 then 0 else s.reg rA) ∧
    (s.eaD 0 d = d.signExtend 32 ∧ s.eaX 0 rB = s.reg rB ∧ s.eaI 0 = 0) ∧
    ((s.setReg 0 v).eaD 0 d = s.eaD 0 d ∧ (rB ≠ 0 → (s.setReg 0 v).eaX 0 rB = s.eaX 0 rB) ∧
      (s.setReg 0 v).eaI 0 = s.eaI 0) ∧
    (rA ≠ 0 → s.eaD rA d = s.reg rA + d.signExtend 32 ∧ s.eaX rA rB = s.reg rA + s.reg rB ∧ s.eaI rA = s.reg rA) ∧
    (s.eaDU rA d = s.reg rA + d.signExtend 32 ∧ s.eaXU rA rB = s.reg rA + s.reg rB) ∧
    (rA ≠ 0 → s.eaDU rA d = s.eaD rA d ∧ s.eaXU rA rB = s.eaX rA rB)

/-- The sums of the addressing modes are taken modulo 2^32, `d` as a signed number (40_address_generation.md R47, R48,
R49, R50). -/
def Obligations.EffectiveAddressIsTheSumModulo : Prop :=
  ∀ (s : State) (rA rB : Reg) (d : BitVec 16),
    ((s.eaD rA d).toNat : Int) = ((s.base rA).toNat + d.toInt) % 4294967296 ∧
    (s.eaX rA rB).toNat = ((s.base rA).toNat + (s.reg rB).toNat) % 4294967296 ∧
    s.eaI rA = s.base rA ∧
    ((s.eaDU rA d).toNat : Int) = ((s.reg rA).toNat + d.toInt) % 4294967296 ∧
    (s.eaXU rA rB).toNat = ((s.reg rA).toNat + (s.reg rB).toNat) % 4294967296

/-! ## Results: where each instruction completes, and what it leaves -/

/-- lbz, lbzx, lbzu, lbzux complete on a byte that is admitted and holds a value: the byte zero-extended in rD, the EA
in rA for the update forms, nothing else but the pc changed (41_integer_load.md R53 to R56). -/
def Obligations.ByteLoadsComplete : Prop :=
  ∀ (s : State) (rD rA rB : Reg) (d : BitVec 16) (b : Byte),
    (holdsBytes s (s.eaD rA d).toNat [b] = true →
      exec (.lbz rD d rA) s = .next (loaded s rD (b.setWidth 32))) ∧
    (holdsBytes s (s.eaX rA rB).toNat [b] = true →
      exec (.lbzx rD rA rB) s = .next (loaded s rD (b.setWidth 32))) ∧
    (rA ≠ 0 → rA ≠ rD → holdsBytes s (s.eaDU rA d).toNat [b] = true →
      exec (.lbzu rD d rA) s = .next (loadedUpdate s rD (b.setWidth 32) rA (s.eaDU rA d))) ∧
    (rA ≠ 0 → rA ≠ rD → holdsBytes s (s.eaXU rA rB).toNat [b] = true →
      exec (.lbzux rD rA rB) s = .next (loadedUpdate s rD (b.setWidth 32) rA (s.eaXU rA rB)))

/-- lhz, lhzx, lhzu, lhzux complete on an aligned half word, and on a misaligned one under policy perform: the half word
big-endian, zero-extended (41_integer_load.md R57 to R60). -/
def Obligations.HalfWordLoadsComplete : Prop :=
  ∀ (s : State) (rD rA rB : Reg) (d : BitVec 16) (b₀ b₁ : Byte),
    (∀ ea, ea = s.eaD rA d → fits ea 2 = true → alignedOrPerformed s ea 2 = true →
      holdsBytes s ea.toNat [b₀, b₁] = true →
      exec (.lhz rD d rA) s = .next (loaded s rD ((b₀ ++ b₁).setWidth 32))) ∧
    (∀ ea, ea = s.eaX rA rB → fits ea 2 = true → alignedOrPerformed s ea 2 = true →
      holdsBytes s ea.toNat [b₀, b₁] = true →
      exec (.lhzx rD rA rB) s = .next (loaded s rD ((b₀ ++ b₁).setWidth 32))) ∧
    (∀ ea, ea = s.eaDU rA d → rA ≠ 0 → rA ≠ rD → fits ea 2 = true → alignedOrPerformed s ea 2 = true →
      holdsBytes s ea.toNat [b₀, b₁] = true →
      exec (.lhzu rD d rA) s = .next (loadedUpdate s rD ((b₀ ++ b₁).setWidth 32) rA ea)) ∧
    (∀ ea, ea = s.eaXU rA rB → rA ≠ 0 → rA ≠ rD → fits ea 2 = true → alignedOrPerformed s ea 2 = true →
      holdsBytes s ea.toNat [b₀, b₁] = true →
      exec (.lhzux rD rA rB) s = .next (loadedUpdate s rD ((b₀ ++ b₁).setWidth 32) rA ea))

/-- lha, lhax, lhau, lhaux complete as the half-word loads do, with the half word sign-extended (41_integer_load.md R61
to R64). -/
def Obligations.AlgebraicLoadsComplete : Prop :=
  ∀ (s : State) (rD rA rB : Reg) (d : BitVec 16) (b₀ b₁ : Byte),
    (∀ ea, ea = s.eaD rA d → fits ea 2 = true → alignedOrPerformed s ea 2 = true →
      holdsBytes s ea.toNat [b₀, b₁] = true →
      exec (.lha rD d rA) s = .next (loaded s rD ((b₀ ++ b₁).signExtend 32))) ∧
    (∀ ea, ea = s.eaX rA rB → fits ea 2 = true → alignedOrPerformed s ea 2 = true →
      holdsBytes s ea.toNat [b₀, b₁] = true →
      exec (.lhax rD rA rB) s = .next (loaded s rD ((b₀ ++ b₁).signExtend 32))) ∧
    (∀ ea, ea = s.eaDU rA d → rA ≠ 0 → rA ≠ rD → fits ea 2 = true → alignedOrPerformed s ea 2 = true →
      holdsBytes s ea.toNat [b₀, b₁] = true →
      exec (.lhau rD d rA) s = .next (loadedUpdate s rD ((b₀ ++ b₁).signExtend 32) rA ea)) ∧
    (∀ ea, ea = s.eaXU rA rB → rA ≠ 0 → rA ≠ rD → fits ea 2 = true → alignedOrPerformed s ea 2 = true →
      holdsBytes s ea.toNat [b₀, b₁] = true →
      exec (.lhaux rD rA rB) s = .next (loadedUpdate s rD ((b₀ ++ b₁).signExtend 32) rA ea))

/-- lwz, lwzx, lwzu, lwzux complete on an aligned word, and on a misaligned one under policy perform: the word
big-endian (41_integer_load.md R65 to R68). -/
def Obligations.WordLoadsComplete : Prop :=
  ∀ (s : State) (rD rA rB : Reg) (d : BitVec 16) (b₀ b₁ b₂ b₃ : Byte),
    (∀ ea, ea = s.eaD rA d → fits ea 4 = true → alignedOrPerformed s ea 4 = true →
      holdsBytes s ea.toNat [b₀, b₁, b₂, b₃] = true →
      exec (.lwz rD d rA) s = .next (loaded s rD (b₀ ++ b₁ ++ b₂ ++ b₃))) ∧
    (∀ ea, ea = s.eaX rA rB → fits ea 4 = true → alignedOrPerformed s ea 4 = true →
      holdsBytes s ea.toNat [b₀, b₁, b₂, b₃] = true →
      exec (.lwzx rD rA rB) s = .next (loaded s rD (b₀ ++ b₁ ++ b₂ ++ b₃))) ∧
    (∀ ea, ea = s.eaDU rA d → rA ≠ 0 → rA ≠ rD → fits ea 4 = true → alignedOrPerformed s ea 4 = true →
      holdsBytes s ea.toNat [b₀, b₁, b₂, b₃] = true →
      exec (.lwzu rD d rA) s = .next (loadedUpdate s rD (b₀ ++ b₁ ++ b₂ ++ b₃) rA ea)) ∧
    (∀ ea, ea = s.eaXU rA rB → rA ≠ 0 → rA ≠ rD → fits ea 4 = true → alignedOrPerformed s ea 4 = true →
      holdsBytes s ea.toNat [b₀, b₁, b₂, b₃] = true →
      exec (.lwzux rD rA rB) s = .next (loadedUpdate s rD (b₀ ++ b₁ ++ b₂ ++ b₃) rA ea))

/-- lhbrx and lwbrx complete as lhzx and lwzx do, with the bytes in the opposite order (43_byte_reverse.md R86, R87). -/
def Obligations.ByteReverseLoadsComplete : Prop :=
  ∀ (s : State) (rD rA rB : Reg) (b₀ b₁ b₂ b₃ : Byte),
    (fits (s.eaX rA rB) 2 = true → alignedOrPerformed s (s.eaX rA rB) 2 = true →
      holdsBytes s (s.eaX rA rB).toNat [b₀, b₁] = true →
      exec (.lhbrx rD rA rB) s = .next (loaded s rD ((b₁ ++ b₀).setWidth 32))) ∧
    (fits (s.eaX rA rB) 4 = true → alignedOrPerformed s (s.eaX rA rB) 4 = true →
      holdsBytes s (s.eaX rA rB).toNat [b₀, b₁, b₂, b₃] = true →
      exec (.lwbrx rD rA rB) s = .next (loaded s rD (b₃ ++ b₂ ++ b₁ ++ b₀)))

/-- stb, stbx, stbu, stbux complete on an admitted byte: the low-order byte of rS there, the EA in rA for the update
forms (the byte stored is the old rS's where rS = rA), the byte's address dirty (42_integer_store.md R73 to R76). -/
def Obligations.ByteStoresComplete : Prop :=
  ∀ (s : State) (rS rA rB : Reg) (d : BitVec 16),
    (admitted s (s.eaD rA d).toNat 1 = true → ∃ t, exec (.stb rS d rA) s = .next t ∧
      storeCompletes s t s.gpr (s.eaD rA d).toNat [(s.reg rS).extractLsb' 0 8]) ∧
    (admitted s (s.eaX rA rB).toNat 1 = true → ∃ t, exec (.stbx rS rA rB) s = .next t ∧
      storeCompletes s t s.gpr (s.eaX rA rB).toNat [(s.reg rS).extractLsb' 0 8]) ∧
    (rA ≠ 0 → admitted s (s.eaDU rA d).toNat 1 = true → ∃ t, exec (.stbu rS d rA) s = .next t ∧
      storeCompletes s t (s.gpr.set rA.toNat (s.eaDU rA d)) (s.eaDU rA d).toNat [(s.reg rS).extractLsb' 0 8]) ∧
    (rA ≠ 0 → admitted s (s.eaXU rA rB).toNat 1 = true → ∃ t, exec (.stbux rS rA rB) s = .next t ∧
      storeCompletes s t (s.gpr.set rA.toNat (s.eaXU rA rB)) (s.eaXU rA rB).toNat [(s.reg rS).extractLsb' 0 8])

/-- sth, sthx, sthu, sthux complete on an admitted half word, aligned or under policy perform: the low-order half word
of rS big-endian (42_integer_store.md R77 to R80). -/
def Obligations.HalfWordStoresComplete : Prop :=
  ∀ (s : State) (rS rA rB : Reg) (d : BitVec 16),
    (∀ ea, ea = s.eaD rA d → fits ea 2 = true → alignedOrPerformed s ea 2 = true → admitted s ea.toNat 2 = true →
      ∃ t, exec (.sth rS d rA) s = .next t ∧ storeCompletes s t s.gpr ea.toNat (halfBytes (s.reg rS))) ∧
    (∀ ea, ea = s.eaX rA rB → fits ea 2 = true → alignedOrPerformed s ea 2 = true → admitted s ea.toNat 2 = true →
      ∃ t, exec (.sthx rS rA rB) s = .next t ∧ storeCompletes s t s.gpr ea.toNat (halfBytes (s.reg rS))) ∧
    (∀ ea, ea = s.eaDU rA d → rA ≠ 0 → fits ea 2 = true → alignedOrPerformed s ea 2 = true →
      admitted s ea.toNat 2 = true → ∃ t, exec (.sthu rS d rA) s = .next t ∧
        storeCompletes s t (s.gpr.set rA.toNat ea) ea.toNat (halfBytes (s.reg rS))) ∧
    (∀ ea, ea = s.eaXU rA rB → rA ≠ 0 → fits ea 2 = true → alignedOrPerformed s ea 2 = true →
      admitted s ea.toNat 2 = true → ∃ t, exec (.sthux rS rA rB) s = .next t ∧
        storeCompletes s t (s.gpr.set rA.toNat ea) ea.toNat (halfBytes (s.reg rS)))

/-- stw, stwx, stwu, stwux complete on an admitted word, aligned or under policy perform: the word in rS big-endian
(42_integer_store.md R81 to R84). -/
def Obligations.WordStoresComplete : Prop :=
  ∀ (s : State) (rS rA rB : Reg) (d : BitVec 16),
    (∀ ea, ea = s.eaD rA d → fits ea 4 = true → alignedOrPerformed s ea 4 = true → admitted s ea.toNat 4 = true →
      ∃ t, exec (.stw rS d rA) s = .next t ∧ storeCompletes s t s.gpr ea.toNat (wordBytes (s.reg rS))) ∧
    (∀ ea, ea = s.eaX rA rB → fits ea 4 = true → alignedOrPerformed s ea 4 = true → admitted s ea.toNat 4 = true →
      ∃ t, exec (.stwx rS rA rB) s = .next t ∧ storeCompletes s t s.gpr ea.toNat (wordBytes (s.reg rS))) ∧
    (∀ ea, ea = s.eaDU rA d → rA ≠ 0 → fits ea 4 = true → alignedOrPerformed s ea 4 = true →
      admitted s ea.toNat 4 = true → ∃ t, exec (.stwu rS d rA) s = .next t ∧
        storeCompletes s t (s.gpr.set rA.toNat ea) ea.toNat (wordBytes (s.reg rS))) ∧
    (∀ ea, ea = s.eaXU rA rB → rA ≠ 0 → fits ea 4 = true → alignedOrPerformed s ea 4 = true →
      admitted s ea.toNat 4 = true → ∃ t, exec (.stwux rS rA rB) s = .next t ∧
        storeCompletes s t (s.gpr.set rA.toNat ea) ea.toNat (wordBytes (s.reg rS)))

/-- sthbrx and stwbrx complete as sthx and stwx do, with the bytes in the opposite order (43_byte_reverse.md R88,
R89). -/
def Obligations.ByteReverseStoresComplete : Prop :=
  ∀ (s : State) (rS rA rB : Reg),
    (fits (s.eaX rA rB) 2 = true → alignedOrPerformed s (s.eaX rA rB) 2 = true →
      admitted s (s.eaX rA rB).toNat 2 = true → ∃ t, exec (.sthbrx rS rA rB) s = .next t ∧
        storeCompletes s t s.gpr (s.eaX rA rB).toNat (halfBytes (s.reg rS)).reverse) ∧
    (fits (s.eaX rA rB) 4 = true → alignedOrPerformed s (s.eaX rA rB) 4 = true →
      admitted s (s.eaX rA rB).toNat 4 = true → ∃ t, exec (.stwbrx rS rA rB) s = .next t ∧
        storeCompletes s t s.gpr (s.eaX rA rB).toNat (wordBytes (s.reg rS)).reverse)

/-- lmw with rA below rD completes on a block of readable words at a multiple of 4: register rD + k holds word k,
nothing else but the pc changes (44_load_store_multiple.md R90, R91). -/
def Obligations.LoadMultipleCompletes : Prop :=
  ∀ (s : State) (rD rA : Reg) (d : BitVec 16) (bs : List Byte),
    rA.toNat < rD.toNat → bs.length = multipleLength rD → fits (s.eaD rA d) (multipleLength rD) = true →
    (s.eaD rA d).toNat % 4 = 0 → holdsBytes s (s.eaD rA d).toNat bs = true →
    ∃ t, exec (.lmw rD d rA) s = .next t ∧ runLoaded s t rD bs

/-- stmw completes on an admitted block at a multiple of 4, whatever rA: the words of rS to r31 in order
(44_load_store_multiple.md R90, R92). -/
def Obligations.StoreMultipleCompletes : Prop :=
  ∀ (s : State) (rS rA : Reg) (d : BitVec 16),
    fits (s.eaD rA d) (multipleLength rS) = true → (s.eaD rA d).toNat % 4 = 0 →
    admitted s (s.eaD rA d).toNat (multipleLength rS) = true →
    ∃ t, exec (.stmw rS d rA) s = .next t ∧
      storeCompletes s t s.gpr (s.eaD rA d).toNat (stringBytes s rS (multipleLength rS))

/-- lswi with rA outside the run completes on a readable string at any address: the bytes fill the registers from the
most significant byte down, the rest of the last register zero (45_load_store_string.md R98, R99). -/
def Obligations.LoadStringImmediateCompletes : Prop :=
  ∀ (s : State) (rD rA : Reg) (nb : BitVec 5) (bs : List Byte),
    registerRunHas rD (registerCount (immediateCount nb)) rA = false → bs.length = immediateCount nb →
    fits (s.eaI rA) (immediateCount nb) = true → holdsBytes s (s.eaI rA).toNat bs = true →
    ∃ t, exec (.lswi rD rA nb) s = .next t ∧ runLoaded s t rD bs

/-- lswx of XER_BC > 0 bytes completes as lswi does, with rA and rB outside the run (45_load_store_string.md R100). -/
def Obligations.LoadStringIndexedCompletes : Prop :=
  ∀ (s : State) (rD rA rB : Reg) (bs : List Byte),
    rD ≠ rA → rD ≠ rB → lswxOverlap s rD rA rB = false → s.xerBc ≠ 0 → bs.length = s.xerBc.toNat →
    fits (s.eaX rA rB) s.xerBc.toNat = true → holdsBytes s (s.eaX rA rB).toNat bs = true →
    ∃ t, exec (.lswx rD rA rB) s = .next t ∧ runLoaded s t rD bs

/-- lswx of no byte completes in every state without reading memory; rD takes a free value, of which nothing is said,
and nothing else but the pc changes (45_load_store_string.md R100; the count of draws is the model's own). -/
def Obligations.LoadStringOfNoByteCompletes : Prop :=
  ∀ (s : State) (rD rA rB : Reg), rD ≠ rA → rD ≠ rB → s.xerBc = 0 →
    ∃ t, exec (.lswx rD rA rB) s = .next t ∧ (∀ q, q ≠ rD → t.reg q = s.reg q) ∧
      t = { s with gpr := t.gpr, pc := s.pc + 4, draws := t.draws }

/-- stswi completes on an admitted string at any address, whatever rA: the bytes of the registers from rS on, most
significant first, wrapping from r31 to r0 (45_load_store_string.md R98, R101). -/
def Obligations.StoreStringImmediateCompletes : Prop :=
  ∀ (s : State) (rS rA : Reg) (nb : BitVec 5),
    fits (s.eaI rA) (immediateCount nb) = true → admitted s (s.eaI rA).toNat (immediateCount nb) = true →
    ∃ t, exec (.stswi rS rA nb) s = .next t ∧
      storeCompletes s t s.gpr (s.eaI rA).toNat (stringBytes s rS (immediateCount nb))

/-- stswx completes on an admitted string of XER_BC bytes, none among them (45_load_store_string.md R98, R102). -/
def Obligations.StoreStringIndexedCompletes : Prop :=
  ∀ (s : State) (rS rA rB : Reg),
    fits (s.eaX rA rB) s.xerBc.toNat = true → admitted s (s.eaX rA rB).toNat s.xerBc.toNat = true →
    ∃ t, exec (.stswx rS rA rB) s = .next t ∧
      storeCompletes s t s.gpr (s.eaX rA rB).toNat (stringBytes s rS s.xerBc.toNat)

/-! ## Exceptions -/

/-- The 18 single-item loads raise Alignment(EA) on a misaligned EA under policy fault, else DSI(EA) where a byte is not
admitted, else UnwrittenMemory of the first byte without a value (60_exceptions.md R116 rows 9 to 11 in their order, log
13); nothing but the fault changes, as log 9 has a raise (41_integer_load.md R51; 60_exceptions.md R110, R111, R113,
R114). -/
def Obligations.SingleLoadsRaise : Prop :=
  ∀ (s : State) (rD rA rB : Reg) (d : BitVec 16),
    ∀ p ∈ plainLoads s rD rA rB d ++ updateLoads s rD rA rB d,
      p.1.wellFormed = true → fits p.2.1 p.2.2 = true →
      (alignedOrPerformed s p.2.1 p.2.2 = false → exec p.1 s = .next (raisedOnly s (.alignment p.2.1))) ∧
      (alignedOrPerformed s p.2.1 p.2.2 = true → admitted s p.2.1.toNat p.2.2 = false →
        exec p.1 s = .next (raisedOnly s (.dsi p.2.1))) ∧
      (∀ k, alignedOrPerformed s p.2.1 p.2.2 = true → firstValueless s p.2.1.toNat p.2.2 k = true →
        exec p.1 s = .next (raisedOnly s (.unwrittenMemory (p.2.1 + BitVec.ofNat 32 k))))

/-- The 14 single-item stores raise Alignment(EA) on a misaligned EA under policy fault, else DSI(EA) where a byte is
not admitted; nothing but the fault changes, as log 9 has a raise: no byte is stored and rA is not updated
(42_integer_store.md R70; 60_exceptions.md R110, R111, R113). -/
def Obligations.SingleStoresRaise : Prop :=
  ∀ (s : State) (rS rA rB : Reg) (d : BitVec 16),
    ∀ p ∈ plainStores s rS rA rB d ++ updateStores s rS rA rB d,
      p.1.wellFormed = true → fits p.2.1 p.2.2 = true →
      (alignedOrPerformed s p.2.1 p.2.2 = false → exec p.1 s = .next (raisedOnly s (.alignment p.2.1))) ∧
      (alignedOrPerformed s p.2.1 p.2.2 = true → admitted s p.2.1.toNat p.2.2 = false →
        exec p.1 s = .next (raisedOnly s (.dsi p.2.1)))

/-- lmw and stmw at an EA that is no multiple of 4 raise Alignment(EA) under either policy, before any register or byte
of memory changes (44_load_store_multiple.md R93, decision D19; a raise as log 9 has it). -/
def Obligations.MisalignedMultipleRaises : Prop :=
  ∀ (s : State) (r rA : Reg) (d : BitVec 16),
    fits (s.eaD rA d) (multipleLength r) = true → (s.eaD rA d).toNat % 4 ≠ 0 →
    (rA.toNat < r.toNat → exec (.lmw r d rA) s = .next (raisedOnly s (.alignment (s.eaD rA d)))) ∧
    exec (.stmw r d rA) s = .next (raisedOnly s (.alignment (s.eaD rA d)))

/-- lmw, lswi and lswx stopped at item `i` of their block (a word for lmw, a byte for the strings), the items before it
readable: they record DSI of that item where a byte of it is not admitted, else UnwrittenMemory of its first byte without
a value (60_exceptions.md R110, R114, R116, log 13), in a next state with the pc as before, as log 9 has a raise (R113).
Memory and every register outside the run are as before, and each register of the run holds its old value or, where its
bytes can be read, its new one: free values, logs 3 and 14 (44_load_store_multiple.md R94; 45_load_store_string.md
R105). -/
def Obligations.InterruptedRunLoadsLeaveOldOrNew : Prop :=
  ∀ (s : State) (rD rA rB : Reg) (d : BitVec 16) (nb : BitVec 5) (i : Nat) (f : Fault),
    ∀ p ∈ runLoads s rD rA rB d nb,
      valid s p.1 = true → fits p.2.1 p.2.2.1 = true → blockAligned p.2.1 p.2.2.2 = true →
      p.2.2.2 * i < p.2.2.1 → readable s p.2.1.toNat (p.2.2.2 * i) = true →
      itemRaises s (p.2.1 + BitVec.ofNat 32 (p.2.2.2 * i)) p.2.2.2 f →
      ∃ t, exec p.1 s = .next t ∧
        t = { s with gpr := t.gpr, draws := t.draws, fault := some ⟨f, s.pc⟩ } ∧
        (∀ q, registerRunHas rD (registerCount p.2.2.1) q = false → t.reg q = s.reg q) ∧
        (∀ j, j < registerCount p.2.2.1 →
          t.reg (rD + BitVec.ofNat 5 j) = s.reg (rD + BitVec.ofNat 5 j) ∨
          ∃ bs, bs.length = min 4 (p.2.2.1 - 4 * j) ∧ holdsBytes s (p.2.1.toNat + 4 * j) bs = true ∧
            t.reg (rD + BitVec.ofNat 5 j) = blockWord bs 0)

/-- stmw, stswi and stswx stopped by the first byte of their block that is not admitted record DSI of its word (stmw) or
of the byte (strings), in a next state with the exception and the pc recorded, as log 9 has a raise (60_exceptions.md
R110, R113); the registers, the pc and every byte outside the block are as before, and each byte of the block
holds its old value or, where it is admitted, its new one: free values, logs 3 and 14 (44_load_store_multiple.md R94;
45_load_store_string.md R105). -/
def Obligations.InterruptedRunStoresLeaveOldOrNew : Prop :=
  ∀ (s : State) (rS rA rB : Reg) (d : BitVec 16) (nb : BitVec 5) (k : Nat),
    ∀ p ∈ runStores s rS rA rB d nb,
      fits p.2.1 p.2.2.1 = true → blockAligned p.2.1 p.2.2.2 = true →
      firstUnadmitted s p.2.1.toNat p.2.2.1 k = true →
      ∃ t, exec p.1 s = .next t ∧
        t = { s with
          mem := t.mem
          dirtyCode := t.dirtyCode
          draws := t.draws
          fault := some ⟨.dsi (p.2.1 + BitVec.ofNat 32 (p.2.2.2 * (k / p.2.2.2))), s.pc⟩ } ∧
        (∀ x, t.byteAt x = s.byteAt x ∨
          (p.2.1.toNat ≤ x ∧ x < p.2.1.toNat + p.2.2.1 ∧ s.admits x = true ∧
            t.byteAt x = some (stringByte s rS (x - p.2.1.toNat)))) ∧
        (∀ x, x ∈ t.dirtyCode → x ∈ s.dirtyCode ∨ (p.2.1.toNat ≤ x ∧ x < p.2.1.toNat + p.2.2.1))

/-! ## Refusals -/

/-- An access, block or string that would run past 0xFFFFFFFF is refused by each of the 38 instructions before anything
is moved, misaligned or not, admitted or not (20_memory.md R24, decision D9, log 20). -/
def Obligations.AccessPastTheTopIsRefused : Prop :=
  ∀ (s : State) (r rA rB : Reg) (d : BitVec 16) (nb : BitVec 5),
    (∀ p ∈ plainLoads s r rA rB d ++ updateLoads s r rA rB d ++ plainStores s r rA rB d ++ updateStores s r rA rB d,
      p.1.wellFormed = true → fits p.2.1 p.2.2 = false → exec p.1 s = .refused (.addressWrap p.2.1 p.2.2)) ∧
    (∀ p ∈ runLoads s r rA rB d nb ++ runStores s r rA rB d nb,
      valid s p.1 = true → fits p.2.1 p.2.2.1 = false → exec p.1 s = .refused (.addressWrap p.2.1 p.2.2.1))

/-- An instruction is refused as an invalid form exactly where a row of 30_encoding.md R42 says so (log 15): by its
fields, or for lswx by the overlap at run time. -/
def Obligations.InvalidFormsAndOnlyTheseAreRefused : Prop :=
  ∀ (s : State) (i : Instr) (row : InvalidRow),
    exec i s = .refused (.invalidForm row) ↔
      i.invalidRow = some row ∨
      (row = .lswxRange ∧ ∃ rD rA rB, i = .lswx rD rA rB ∧ lswxOverlap s rD rA rB = true)

/-- Every instruction answers in every state: a next state, or a refusal as an invalid form or a wrap; never a fault,
since a raise is a next state (log 9). -/
def Obligations.ExecAnswersNextUnlessInvalidOrWrapping : Prop :=
  ∀ (s : State) (i : Instr),
    (∃ t, exec i s = .next t) ∨ (∃ row, exec i s = .refused (.invalidForm row)) ∨
    (∃ a n, exec i s = .refused (.addressWrap a n) ∧ fits a n = false)

/-! ## Frames: what an instruction leaves unchanged whenever it answers a next state -/

/-- The 18 single-item loads: every register but rD, and but rA in the update forms, every byte of memory, every dirty
mark, XER_BC and the launch parameters are as before (10_state.md R10; 41_integer_load.md R51). -/
def Obligations.SingleLoadsFrame : Prop :=
  ∀ (s t : State) (rD rA rB : Reg) (d : BitVec 16),
    (∀ p ∈ plainLoads s rD rA rB d, exec p.1 s = .next t →
      (∀ q, q ≠ rD → t.reg q = s.reg q) ∧ (∀ x, t.byteAt x = s.byteAt x) ∧
      t = { s with gpr := t.gpr, pc := t.pc, fault := t.fault }) ∧
    (∀ p ∈ updateLoads s rD rA rB d, exec p.1 s = .next t →
      (∀ q, q ≠ rD → q ≠ rA → t.reg q = s.reg q) ∧ (∀ x, t.byteAt x = s.byteAt x) ∧
      t = { s with gpr := t.gpr, pc := t.pc, fault := t.fault })

/-- The 14 single-item stores: every register, but rA in the update forms, every byte and dirty mark outside the bytes
stored to, XER_BC and the launch parameters are as before (42_integer_store.md R70, R71). -/
def Obligations.SingleStoresFrame : Prop :=
  ∀ (s t : State) (rS rA rB : Reg) (d : BitVec 16),
    (∀ p ∈ plainStores s rS rA rB d, exec p.1 s = .next t →
      (∀ q, t.reg q = s.reg q) ∧
      (∀ x, ¬(p.2.1.toNat ≤ x ∧ x < p.2.1.toNat + p.2.2) →
        t.byteAt x = s.byteAt x ∧ (x ∈ t.dirtyCode ↔ x ∈ s.dirtyCode)) ∧
      t = { s with pc := t.pc, fault := t.fault, mem := t.mem, dirtyCode := t.dirtyCode }) ∧
    (∀ p ∈ updateStores s rS rA rB d, exec p.1 s = .next t →
      (∀ q, q ≠ rA → t.reg q = s.reg q) ∧
      (∀ x, ¬(p.2.1.toNat ≤ x ∧ x < p.2.1.toNat + p.2.2) →
        t.byteAt x = s.byteAt x ∧ (x ∈ t.dirtyCode ↔ x ∈ s.dirtyCode)) ∧
      t = { s with gpr := t.gpr, pc := t.pc, fault := t.fault, mem := t.mem, dirtyCode := t.dirtyCode })

/-- lmw, lswi and lswx, completed or stopped part-way: every register outside the run (outside rD for lswx of no byte),
every byte of memory, every dirty mark, XER_BC and the launch parameters are as before (10_state.md R10). -/
def Obligations.RunLoadsFrame : Prop :=
  ∀ (s t : State) (rD rA rB : Reg) (d : BitVec 16) (nb : BitVec 5),
    ∀ p ∈ runLoads s rD rA rB d nb, exec p.1 s = .next t →
      (∀ q, q ≠ rD → registerRunHas rD (registerCount p.2.2.1) q = false → t.reg q = s.reg q) ∧
      (∀ x, t.byteAt x = s.byteAt x) ∧
      t = { s with gpr := t.gpr, pc := t.pc, fault := t.fault, draws := t.draws }

/-- stmw, stswi and stswx, completed or stopped part-way: every register, every byte and dirty mark outside the block,
XER_BC and the launch parameters are as before (10_state.md R10). -/
def Obligations.RunStoresFrame : Prop :=
  ∀ (s t : State) (rS rA rB : Reg) (d : BitVec 16) (nb : BitVec 5),
    ∀ p ∈ runStores s rS rA rB d nb, exec p.1 s = .next t →
      (∀ q, t.reg q = s.reg q) ∧
      (∀ x, ¬(p.2.1.toNat ≤ x ∧ x < p.2.1.toNat + p.2.2.1) →
        t.byteAt x = s.byteAt x ∧ (x ∈ t.dirtyCode ↔ x ∈ s.dirtyCode)) ∧
      t = { s with pc := t.pc, fault := t.fault, mem := t.mem, dirtyCode := t.dirtyCode, draws := t.draws }

/-! ## Rules of the whole machine -/

/-- No step writes XER_BC, a launch parameter or a refusal (10_state.md R13, R18; 20_memory.md R28). -/
def Obligations.StepKeepsXerAndParameters : Prop :=
  ∀ s t : State, Machine.step s = .next t → sameControl s t

/-- Every instruction that answers a next state has either completed, with the pc advanced by 4 modulo 2^32 and no
exception recorded, or raised, with the pc as before and the exception recorded with it, as log 9 has a raise
(10_state.md R11; 60_exceptions.md R113). -/
def Obligations.PcAdvancesByFourOrTheFaultIsRecorded : Prop :=
  ∀ (s t : State) (i : Instr), exec i s = .next t →
    (t.pc = s.pc + 4 ∧ t.fault = s.fault) ∨ (t.pc = s.pc ∧ ∃ f, t.fault = some ⟨f, s.pc⟩)

/-- The invariant holds at reset (whose pc and admitted addresses are the model's choices, logs 4 and 6), and in every
launch state with an aligned pc whose memory is in canonical form and inside the admitted addresses. -/
def Obligations.LaunchMeetsTheInvariant : Prop :=
  State.reset.Inv ∧
  ∀ (p : Platform) (pc0 : Word) (gpr0 : Vector Word 32) (xer : BitVec 7) (mem0 : Memory),
    pc0.toNat % 4 = 0 → Memory.wf mem0 = true → (∀ c ∈ mem0, p.memAdmit.any (·.covers c.1) = true) →
    (State.launch p pc0 gpr0 xer mem0).Inv

/-- Every step keeps the invariant: memory and the dirty set stay canonical and inside the address space, only admitted
bytes hold a value, every dirty byte holds one, the pc stays a multiple of 4, a recorded fault is the pc's. -/
def Obligations.StepKeepsTheInvariant : Prop :=
  ∀ s t : State, s.Inv → Machine.step s = .next t → t.Inv

/-- Memory changes only at dirty addresses and dirty addresses stay dirty, in every step (20_memory.md R22, R32). -/
def Obligations.MemoryChangesOnlyAtDirtyAddresses : Prop :=
  ∀ s t : State, Machine.step s = .next t →
    (∀ a, a ∈ s.dirtyCode → a ∈ t.dirtyCode) ∧
    (∀ a, a ∉ t.dirtyCode → t.byteAt a = s.byteAt a) ∧
    (∀ a, a ∈ t.dirtyCode → a ∈ s.dirtyCode ∨ (s.admits a = true ∧ (t.byteAt a).isSome = true))

/-- No run executes an instruction that a store has changed: wherever a run from any state without dirty addresses is
about to execute an instruction, its four bytes are those the run started with and decode to it (20_memory.md R32). -/
def Obligations.RunsExecuteOnlyLaunchCode : Prop :=
  ∀ (k : Nat) (s t : State) (i : Instr),
    s.dirtyCode = [] → Host.Core.run Sys2Proof.core k s = .next t → State.issue t = .run i →
    ∃ bs, bs.length = 4 ∧ decode bs = .ok i ∧
      ∀ j, j < 4 → s.byteAt (t.pc.toNat + j) = bs[j]? ∧ t.byteAt (t.pc.toNat + j) = bs[j]?

/-! ## Equivalences -/

/-- A load of what a store has just stored gives it back: words, low-order half words and low-order bytes; byte-reversed
words by lwbrx, and reversed by lwzx (20_memory.md R30; 43_byte_reverse.md R89). -/
def Obligations.StoreThenLoadGivesTheValue : Prop :=
  ∀ (s t : State) (rS rD rA rB : Reg) (d : BitVec 16), t.pc = s.pc + 4 →
    (exec (.stw rS d rA) s = .next t → exec (.lwz rD d rA) t = .next (loaded t rD (s.reg rS))) ∧
    (exec (.sth rS d rA) s = .next t →
      exec (.lhz rD d rA) t = .next (loaded t rD (((s.reg rS).setWidth 16).setWidth 32))) ∧
    (exec (.stb rS d rA) s = .next t →
      exec (.lbz rD d rA) t = .next (loaded t rD (((s.reg rS).setWidth 8).setWidth 32))) ∧
    (exec (.stwbrx rS rA rB) s = .next t → exec (.lwbrx rD rA rB) t = .next (loaded t rD (s.reg rS))) ∧
    (exec (.stwbrx rS rA rB) s = .next t → exec (.lwzx rD rA rB) t = .next (loaded t rD
      ((s.reg rS).extractLsb' 0 8 ++ (s.reg rS).extractLsb' 8 8 ++ (s.reg rS).extractLsb' 16 8 ++
        (s.reg rS).extractLsb' 24 8)))

/-- A load with update with rA = 0 or rA = rD is refused as an invalid form; with any other fields, rB = rA and rB = rD
among them, it does what the load without update does and, where that completes, puts the EA into rA
(41_integer_load.md R52). -/
def Obligations.UpdateLoadIsLoadThenUpdate : Prop :=
  ∀ (s : State) (rD rA rB : Reg) (d : BitVec 16),
  (rA = 0 ∨ rA = rD → ∀ p ∈ updateLoads s rD rA rB d, exec p.1 s = .refused (.invalidForm .loadUpdate)) ∧
  (rA ≠ 0 → rA ≠ rD →
    exec (.lbzu rD d rA) s = thenUpdate s rA (s.eaD rA d) (exec (.lbz rD d rA) s) ∧
    exec (.lbzux rD rA rB) s = thenUpdate s rA (s.eaX rA rB) (exec (.lbzx rD rA rB) s) ∧
    exec (.lhzu rD d rA) s = thenUpdate s rA (s.eaD rA d) (exec (.lhz rD d rA) s) ∧
    exec (.lhzux rD rA rB) s = thenUpdate s rA (s.eaX rA rB) (exec (.lhzx rD rA rB) s) ∧
    exec (.lhau rD d rA) s = thenUpdate s rA (s.eaD rA d) (exec (.lha rD d rA) s) ∧
    exec (.lhaux rD rA rB) s = thenUpdate s rA (s.eaX rA rB) (exec (.lhax rD rA rB) s) ∧
    exec (.lwzu rD d rA) s = thenUpdate s rA (s.eaD rA d) (exec (.lwz rD d rA) s) ∧
    exec (.lwzux rD rA rB) s = thenUpdate s rA (s.eaX rA rB) (exec (.lwzx rD rA rB) s))

/-- A store with update with rA = 0 is refused as an invalid form; with any other fields, rS = rA, rB = rA and rB = rS
among them, it does what the store without update does and, where that completes, puts the EA into rA: the value stored
is the old rS's (42_integer_store.md R71). -/
def Obligations.UpdateStoreIsStoreThenUpdate : Prop :=
  ∀ (s : State) (rS rA rB : Reg) (d : BitVec 16),
  (rA = 0 → ∀ p ∈ updateStores s rS rA rB d, exec p.1 s = .refused (.invalidForm .storeUpdate)) ∧
  (rA ≠ 0 →
    exec (.stbu rS d rA) s = thenUpdate s rA (s.eaD rA d) (exec (.stb rS d rA) s) ∧
    exec (.stbux rS rA rB) s = thenUpdate s rA (s.eaX rA rB) (exec (.stbx rS rA rB) s) ∧
    exec (.sthu rS d rA) s = thenUpdate s rA (s.eaD rA d) (exec (.sth rS d rA) s) ∧
    exec (.sthux rS rA rB) s = thenUpdate s rA (s.eaX rA rB) (exec (.sthx rS rA rB) s) ∧
    exec (.stwu rS d rA) s = thenUpdate s rA (s.eaD rA d) (exec (.stw rS d rA) s) ∧
    exec (.stwux rS rA rB) s = thenUpdate s rA (s.eaX rA rB) (exec (.stwx rS rA rB) s))

/-- lmw that completes gives what the word loads of its registers one after the other give, but for the pc, where every
displacement of the sequence fits 16 signed bits (44_load_store_multiple.md R90, R91). -/
def Obligations.LoadMultipleIsWordLoads : Prop :=
  ∀ (s : State) (rD rA : Reg) (d : BitVec 16) (bs : List Byte),
    rA.toNat < rD.toNat → bs.length = multipleLength rD → fits (s.eaD rA d) (multipleLength rD) = true →
    (s.eaD rA d).toNat % 4 = 0 → holdsBytes s (s.eaD rA d).toNat bs = true →
    d.toInt + multipleLength rD ≤ 32768 →
    ∃ t u, exec (.lmw rD d rA) s = .next t ∧
      execAll ((List.range (32 - rD.toNat)).map fun k =>
        .lwz (rD + BitVec.ofNat 5 k) (d + BitVec.ofNat 16 (4 * k)) rA) s = .next u ∧
      u = { t with pc := s.pc + BitVec.ofNat 32 (multipleLength rD) }

/-- stmw that completes gives what the word stores of its registers one after the other give, but for the pc, where every
displacement of the sequence fits 16 signed bits (44_load_store_multiple.md R90, R92). -/
def Obligations.StoreMultipleIsWordStores : Prop :=
  ∀ (s : State) (rS rA : Reg) (d : BitVec 16),
    fits (s.eaD rA d) (multipleLength rS) = true → (s.eaD rA d).toNat % 4 = 0 →
    admitted s (s.eaD rA d).toNat (multipleLength rS) = true → d.toInt + multipleLength rS ≤ 32768 →
    ∃ t u, exec (.stmw rS d rA) s = .next t ∧
      execAll ((List.range (32 - rS.toNat)).map fun k =>
        .stw (rS + BitVec.ofNat 5 k) (d + BitVec.ofNat 16 (4 * k)) rA) s = .next u ∧
      u = { t with pc := s.pc + BitVec.ofNat 32 (multipleLength rS) }

/-- lswi of a whole number of words at a multiple of 4 gives what the word loads of its registers give, but for the pc
(45_load_store_string.md R106). -/
def Obligations.LoadStringIsWordLoads : Prop :=
  ∀ (s : State) (rD rA : Reg) (nb : BitVec 5) (m : Nat) (bs : List Byte),
    immediateCount nb = 4 * m → bs.length = 4 * m → registerRunHas rD m rA = false → fits (s.eaI rA) (4 * m) = true →
    (s.eaI rA).toNat % 4 = 0 → holdsBytes s (s.eaI rA).toNat bs = true →
    ∃ t u, exec (.lswi rD rA nb) s = .next t ∧
      execAll ((List.range m).map fun j => .lwz (rD + BitVec.ofNat 5 j) (BitVec.ofNat 16 (4 * j)) rA) s = .next u ∧
      u = { t with pc := s.pc + BitVec.ofNat 32 (4 * m) }
end

