-- ==== Sys2Proof/Laws/State.lean ====
section
/-!
SUPPORT. One lemma per field of State per update, and the reads of one register, one byte and one address through each
update, so that no later proof unfolds a record update.
-/

namespace Sys2Proof.Machine

/-! ### setReg -/

@[simp] theorem State.setReg_gpr (s : State) (r : Reg) (v : Word) : (s.setReg r v).gpr = s.gpr.set r.toNat v := rfl
@[simp] theorem State.setReg_pc (s : State) (r : Reg) (v : Word) : (s.setReg r v).pc = s.pc := rfl
@[simp] theorem State.setReg_xerBc (s : State) (r : Reg) (v : Word) : (s.setReg r v).xerBc = s.xerBc := rfl
@[simp] theorem State.setReg_mem (s : State) (r : Reg) (v : Word) : (s.setReg r v).mem = s.mem := rfl
@[simp] theorem State.setReg_dirtyCode (s : State) (r : Reg) (v : Word) : (s.setReg r v).dirtyCode = s.dirtyCode := rfl
@[simp] theorem State.setReg_fault (s : State) (r : Reg) (v : Word) : (s.setReg r v).fault = s.fault := rfl
@[simp] theorem State.setReg_refused (s : State) (r : Reg) (v : Word) : (s.setReg r v).refused = s.refused := rfl
@[simp] theorem State.setReg_platform (s : State) (r : Reg) (v : Word) : (s.setReg r v).platform = s.platform := rfl
@[simp] theorem State.setReg_draws (s : State) (r : Reg) (v : Word) : (s.setReg r v).draws = s.draws := rfl

/-! ### advance -/

@[simp] theorem State.advance_gpr (s : State) : s.advance.gpr = s.gpr := rfl
@[simp] theorem State.advance_pc (s : State) : s.advance.pc = s.pc + 4 := rfl
@[simp] theorem State.advance_xerBc (s : State) : s.advance.xerBc = s.xerBc := rfl
@[simp] theorem State.advance_mem (s : State) : s.advance.mem = s.mem := rfl
@[simp] theorem State.advance_dirtyCode (s : State) : s.advance.dirtyCode = s.dirtyCode := rfl
@[simp] theorem State.advance_fault (s : State) : s.advance.fault = s.fault := rfl
@[simp] theorem State.advance_refused (s : State) : s.advance.refused = s.refused := rfl
@[simp] theorem State.advance_platform (s : State) : s.advance.platform = s.platform := rfl
@[simp] theorem State.advance_draws (s : State) : s.advance.draws = s.draws := rfl

/-! ### storeByte -/

@[simp] theorem State.storeByte_gpr (s : State) (a : Nat) (b : Byte) : (s.storeByte a b).gpr = s.gpr := rfl
@[simp] theorem State.storeByte_pc (s : State) (a : Nat) (b : Byte) : (s.storeByte a b).pc = s.pc := rfl
@[simp] theorem State.storeByte_xerBc (s : State) (a : Nat) (b : Byte) : (s.storeByte a b).xerBc = s.xerBc := rfl
@[simp] theorem State.storeByte_mem (s : State) (a : Nat) (b : Byte) : (s.storeByte a b).mem = Memory.write s.mem a b := rfl
@[simp] theorem State.storeByte_dirtyCode (s : State) (a : Nat) (b : Byte) : (s.storeByte a b).dirtyCode = addrInsert a s.dirtyCode := rfl
@[simp] theorem State.storeByte_fault (s : State) (a : Nat) (b : Byte) : (s.storeByte a b).fault = s.fault := rfl
@[simp] theorem State.storeByte_refused (s : State) (a : Nat) (b : Byte) : (s.storeByte a b).refused = s.refused := rfl
@[simp] theorem State.storeByte_platform (s : State) (a : Nat) (b : Byte) : (s.storeByte a b).platform = s.platform := rfl
@[simp] theorem State.storeByte_draws (s : State) (a : Nat) (b : Byte) : (s.storeByte a b).draws = s.draws := rfl

/-! ### raise -/

@[simp] theorem State.raise_gpr (s : State) (f : Fault) : (s.raise f).gpr = s.gpr := rfl
@[simp] theorem State.raise_pc (s : State) (f : Fault) : (s.raise f).pc = s.pc := rfl
@[simp] theorem State.raise_xerBc (s : State) (f : Fault) : (s.raise f).xerBc = s.xerBc := rfl
@[simp] theorem State.raise_mem (s : State) (f : Fault) : (s.raise f).mem = s.mem := rfl
@[simp] theorem State.raise_dirtyCode (s : State) (f : Fault) : (s.raise f).dirtyCode = s.dirtyCode := rfl
@[simp] theorem State.raise_fault (s : State) (f : Fault) : (s.raise f).fault = some ⟨f, s.pc⟩ := rfl
@[simp] theorem State.raise_refused (s : State) (f : Fault) : (s.raise f).refused = s.refused := rfl
@[simp] theorem State.raise_platform (s : State) (f : Fault) : (s.raise f).platform = s.platform := rfl
@[simp] theorem State.raise_draws (s : State) (f : Fault) : (s.raise f).draws = s.draws := rfl

/-! ### recordRefusal -/

@[simp] theorem State.recordRefusal_gpr (s : State) (r : Refusal) : (s.recordRefusal r).gpr = s.gpr := rfl
@[simp] theorem State.recordRefusal_pc (s : State) (r : Refusal) : (s.recordRefusal r).pc = s.pc := rfl
@[simp] theorem State.recordRefusal_xerBc (s : State) (r : Refusal) : (s.recordRefusal r).xerBc = s.xerBc := rfl
@[simp] theorem State.recordRefusal_mem (s : State) (r : Refusal) : (s.recordRefusal r).mem = s.mem := rfl
@[simp] theorem State.recordRefusal_dirtyCode (s : State) (r : Refusal) : (s.recordRefusal r).dirtyCode = s.dirtyCode := rfl
@[simp] theorem State.recordRefusal_fault (s : State) (r : Refusal) : (s.recordRefusal r).fault = s.fault := rfl
@[simp] theorem State.recordRefusal_refused (s : State) (r : Refusal) : (s.recordRefusal r).refused = some ⟨r, s.pc⟩ := rfl
@[simp] theorem State.recordRefusal_platform (s : State) (r : Refusal) : (s.recordRefusal r).platform = s.platform := rfl
@[simp] theorem State.recordRefusal_draws (s : State) (r : Refusal) : (s.recordRefusal r).draws = s.draws := rfl

/-! ### placeCode -/

@[simp] theorem State.placeCode_gpr (s : State) (bs : List Byte) : (s.placeCode bs).gpr = s.gpr := rfl
@[simp] theorem State.placeCode_pc (s : State) (bs : List Byte) : (s.placeCode bs).pc = s.pc := rfl
@[simp] theorem State.placeCode_xerBc (s : State) (bs : List Byte) : (s.placeCode bs).xerBc = s.xerBc := rfl
@[simp] theorem State.placeCode_mem (s : State) (bs : List Byte) : (s.placeCode bs).mem = Memory.place s.mem s.pc.toNat bs := rfl
@[simp] theorem State.placeCode_fault (s : State) (bs : List Byte) : (s.placeCode bs).fault = s.fault := rfl
@[simp] theorem State.placeCode_refused (s : State) (bs : List Byte) : (s.placeCode bs).refused = s.refused := rfl
@[simp] theorem State.placeCode_draws (s : State) (bs : List Byte) : (s.placeCode bs).draws = s.draws := rfl

/-! ### setRun: a run of registers -/

@[simp] theorem State.setRun_pc (s : State) (r : Reg) (ws : List Word) : (s.setRun r ws).pc = s.pc := by
  induction ws generalizing s r with
  | nil => rfl
  | cons w ws ih => simp [State.setRun, ih]
@[simp] theorem State.setRun_xerBc (s : State) (r : Reg) (ws : List Word) : (s.setRun r ws).xerBc = s.xerBc := by
  induction ws generalizing s r with
  | nil => rfl
  | cons w ws ih => simp [State.setRun, ih]
@[simp] theorem State.setRun_mem (s : State) (r : Reg) (ws : List Word) : (s.setRun r ws).mem = s.mem := by
  induction ws generalizing s r with
  | nil => rfl
  | cons w ws ih => simp [State.setRun, ih]
@[simp] theorem State.setRun_dirtyCode (s : State) (r : Reg) (ws : List Word) : (s.setRun r ws).dirtyCode = s.dirtyCode := by
  induction ws generalizing s r with
  | nil => rfl
  | cons w ws ih => simp [State.setRun, ih]
@[simp] theorem State.setRun_fault (s : State) (r : Reg) (ws : List Word) : (s.setRun r ws).fault = s.fault := by
  induction ws generalizing s r with
  | nil => rfl
  | cons w ws ih => simp [State.setRun, ih]
@[simp] theorem State.setRun_refused (s : State) (r : Reg) (ws : List Word) : (s.setRun r ws).refused = s.refused := by
  induction ws generalizing s r with
  | nil => rfl
  | cons w ws ih => simp [State.setRun, ih]
@[simp] theorem State.setRun_platform (s : State) (r : Reg) (ws : List Word) : (s.setRun r ws).platform = s.platform := by
  induction ws generalizing s r with
  | nil => rfl
  | cons w ws ih => simp [State.setRun, ih]
@[simp] theorem State.setRun_draws (s : State) (r : Reg) (ws : List Word) : (s.setRun r ws).draws = s.draws := by
  induction ws generalizing s r with
  | nil => rfl
  | cons w ws ih => simp [State.setRun, ih]

/-! ### storeBytes: a run of bytes -/

@[simp] theorem State.storeBytes_gpr (s : State) (a : Nat) (bs : List Byte) :
    (s.storeBytes a bs).gpr = s.gpr := by
  induction bs generalizing s a with
  | nil => rfl
  | cons b bs ih => simp [State.storeBytes, ih]
@[simp] theorem State.storeBytes_pc (s : State) (a : Nat) (bs : List Byte) :
    (s.storeBytes a bs).pc = s.pc := by
  induction bs generalizing s a with
  | nil => rfl
  | cons b bs ih => simp [State.storeBytes, ih]
@[simp] theorem State.storeBytes_xerBc (s : State) (a : Nat) (bs : List Byte) :
    (s.storeBytes a bs).xerBc = s.xerBc := by
  induction bs generalizing s a with
  | nil => rfl
  | cons b bs ih => simp [State.storeBytes, ih]
@[simp] theorem State.storeBytes_fault (s : State) (a : Nat) (bs : List Byte) :
    (s.storeBytes a bs).fault = s.fault := by
  induction bs generalizing s a with
  | nil => rfl
  | cons b bs ih => simp [State.storeBytes, ih]
@[simp] theorem State.storeBytes_refused (s : State) (a : Nat) (bs : List Byte) :
    (s.storeBytes a bs).refused = s.refused := by
  induction bs generalizing s a with
  | nil => rfl
  | cons b bs ih => simp [State.storeBytes, ih]
@[simp] theorem State.storeBytes_platform (s : State) (a : Nat) (bs : List Byte) :
    (s.storeBytes a bs).platform = s.platform := by
  induction bs generalizing s a with
  | nil => rfl
  | cons b bs ih => simp [State.storeBytes, ih]
@[simp] theorem State.storeBytes_draws (s : State) (a : Nat) (bs : List Byte) :
    (s.storeBytes a bs).draws = s.draws := by
  induction bs generalizing s a with
  | nil => rfl
  | cons b bs ih => simp [State.storeBytes, ih]

/-! ### drawBytes, drawBlock, drawRun: what an access stopped part-way leaves -/

@[simp] theorem State.drawBytes_gpr (s : State) (a c : Nat) (bs : List Byte) :
    (s.drawBytes a c bs).gpr = s.gpr := by
  induction bs generalizing s a c with
  | nil => rfl
  | cons b bs ih => rw [State.drawBytes, ih]; split <;> simp
@[simp] theorem State.drawBytes_pc (s : State) (a c : Nat) (bs : List Byte) :
    (s.drawBytes a c bs).pc = s.pc := by
  induction bs generalizing s a c with
  | nil => rfl
  | cons b bs ih => rw [State.drawBytes, ih]; split <;> simp
@[simp] theorem State.drawBytes_xerBc (s : State) (a c : Nat) (bs : List Byte) :
    (s.drawBytes a c bs).xerBc = s.xerBc := by
  induction bs generalizing s a c with
  | nil => rfl
  | cons b bs ih => rw [State.drawBytes, ih]; split <;> simp
@[simp] theorem State.drawBytes_fault (s : State) (a c : Nat) (bs : List Byte) :
    (s.drawBytes a c bs).fault = s.fault := by
  induction bs generalizing s a c with
  | nil => rfl
  | cons b bs ih => rw [State.drawBytes, ih]; split <;> simp
@[simp] theorem State.drawBytes_refused (s : State) (a c : Nat) (bs : List Byte) :
    (s.drawBytes a c bs).refused = s.refused := by
  induction bs generalizing s a c with
  | nil => rfl
  | cons b bs ih => rw [State.drawBytes, ih]; split <;> simp
@[simp] theorem State.drawBytes_platform (s : State) (a c : Nat) (bs : List Byte) :
    (s.drawBytes a c bs).platform = s.platform := by
  induction bs generalizing s a c with
  | nil => rfl
  | cons b bs ih => rw [State.drawBytes, ih]; split <;> simp
@[simp] theorem State.drawBytes_draws (s : State) (a c : Nat) (bs : List Byte) :
    (s.drawBytes a c bs).draws = s.draws := by
  induction bs generalizing s a c with
  | nil => rfl
  | cons b bs ih => rw [State.drawBytes, ih]; split <;> simp
@[simp] theorem State.drawBlock_gpr (s : State) (a : Nat) (bs : List Byte) :
    (s.drawBlock a bs).gpr = s.gpr := State.drawBytes_gpr s a s.draws bs
@[simp] theorem State.drawBlock_pc (s : State) (a : Nat) (bs : List Byte) :
    (s.drawBlock a bs).pc = s.pc := State.drawBytes_pc s a s.draws bs
@[simp] theorem State.drawBlock_xerBc (s : State) (a : Nat) (bs : List Byte) :
    (s.drawBlock a bs).xerBc = s.xerBc := State.drawBytes_xerBc s a s.draws bs
@[simp] theorem State.drawBlock_mem (s : State) (a : Nat) (bs : List Byte) :
    (s.drawBlock a bs).mem = (s.drawBytes a s.draws bs).mem := rfl
@[simp] theorem State.drawBlock_dirtyCode (s : State) (a : Nat) (bs : List Byte) :
    (s.drawBlock a bs).dirtyCode = (s.drawBytes a s.draws bs).dirtyCode := rfl
@[simp] theorem State.drawBlock_fault (s : State) (a : Nat) (bs : List Byte) :
    (s.drawBlock a bs).fault = s.fault := State.drawBytes_fault s a s.draws bs
@[simp] theorem State.drawBlock_refused (s : State) (a : Nat) (bs : List Byte) :
    (s.drawBlock a bs).refused = s.refused := State.drawBytes_refused s a s.draws bs
@[simp] theorem State.drawBlock_platform (s : State) (a : Nat) (bs : List Byte) :
    (s.drawBlock a bs).platform = s.platform := State.drawBytes_platform s a s.draws bs
@[simp] theorem State.drawBlock_draws (s : State) (a : Nat) (bs : List Byte) :
    (s.drawBlock a bs).draws = s.draws + bs.length := rfl
@[simp] theorem State.drawRun_pc (s : State) (rD : Reg) (a n : Nat) : (s.drawRun rD a n).pc = s.pc := State.setRun_pc s rD _
@[simp] theorem State.drawRun_xerBc (s : State) (rD : Reg) (a n : Nat) : (s.drawRun rD a n).xerBc = s.xerBc := State.setRun_xerBc s rD _
@[simp] theorem State.drawRun_mem (s : State) (rD : Reg) (a n : Nat) : (s.drawRun rD a n).mem = s.mem := State.setRun_mem s rD _
@[simp] theorem State.drawRun_dirtyCode (s : State) (rD : Reg) (a n : Nat) : (s.drawRun rD a n).dirtyCode = s.dirtyCode := State.setRun_dirtyCode s rD _
@[simp] theorem State.drawRun_fault (s : State) (rD : Reg) (a n : Nat) : (s.drawRun rD a n).fault = s.fault := State.setRun_fault s rD _
@[simp] theorem State.drawRun_refused (s : State) (rD : Reg) (a n : Nat) : (s.drawRun rD a n).refused = s.refused := State.setRun_refused s rD _
@[simp] theorem State.drawRun_platform (s : State) (rD : Reg) (a n : Nat) : (s.drawRun rD a n).platform = s.platform := State.setRun_platform s rD _
@[simp] theorem State.drawRun_draws (s : State) (rD : Reg) (a n : Nat) : (s.drawRun rD a n).draws = s.draws + registerCount n := rfl

/-! ### Reads through the updates -/

/-- A register after a write: the one written, or as before (10_state.md R10: no register is special). -/
theorem State.reg_setReg (s : State) (r q : Reg) (v : Word) :
    (s.setReg r v).reg q = if q = r then v else s.reg q := by
  unfold State.reg State.setReg
  rw [Vector.getElem_set]
  by_cases h : q = r
  · simp [h]
  · have : r.toNat ≠ q.toNat := fun e => h (BitVec.eq_of_toNat_eq e.symm)
    simp [h, this]

@[simp] theorem State.reg_setReg_self (s : State) (r : Reg) (v : Word) : (s.setReg r v).reg r = v := by
  simp [State.reg_setReg]

@[simp] theorem State.reg_advance (s : State) (q : Reg) : s.advance.reg q = s.reg q := rfl
@[simp] theorem State.reg_raise (s : State) (f : Fault) (q : Reg) : (s.raise f).reg q = s.reg q := rfl
@[simp] theorem State.reg_storeBytes (s : State) (a : Nat) (bs : List Byte) (q : Reg) :
    (s.storeBytes a bs).reg q = s.reg q := by simp [State.reg]
@[simp] theorem State.reg_drawBlock (s : State) (a : Nat) (bs : List Byte) (q : Reg) :
    (s.drawBlock a bs).reg q = s.reg q := by simp [State.reg]

@[simp] theorem State.byteAt_setReg (s : State) (r : Reg) (v : Word) (a : Nat) :
    (s.setReg r v).byteAt a = s.byteAt a := rfl
@[simp] theorem State.byteAt_advance (s : State) (a : Nat) : s.advance.byteAt a = s.byteAt a := rfl
@[simp] theorem State.byteAt_raise (s : State) (f : Fault) (a : Nat) : (s.raise f).byteAt a = s.byteAt a := rfl
@[simp] theorem State.byteAt_setRun (s : State) (r : Reg) (ws : List Word) (a : Nat) :
    (s.setRun r ws).byteAt a = s.byteAt a := by simp [State.byteAt]
@[simp] theorem State.byteAt_drawRun (s : State) (rD : Reg) (a n x : Nat) :
    (s.drawRun rD a n).byteAt x = s.byteAt x := by simp [State.byteAt]

@[simp] theorem State.admits_setReg (s : State) (r : Reg) (v : Word) (a : Nat) :
    (s.setReg r v).admits a = s.admits a := rfl
@[simp] theorem State.admits_advance (s : State) (a : Nat) : s.advance.admits a = s.admits a := rfl
@[simp] theorem State.admits_raise (s : State) (f : Fault) (a : Nat) : (s.raise f).admits a = s.admits a := rfl
@[simp] theorem State.admits_storeByte (s : State) (x : Nat) (b : Byte) (a : Nat) :
    (s.storeByte x b).admits a = s.admits a := rfl
@[simp] theorem State.admits_storeBytes (s : State) (x : Nat) (bs : List Byte) (a : Nat) :
    (s.storeBytes x bs).admits a = s.admits a := by simp [State.admits]
@[simp] theorem State.admits_setRun (s : State) (r : Reg) (ws : List Word) (a : Nat) :
    (s.setRun r ws).admits a = s.admits a := by simp [State.admits]

end Sys2Proof.Machine
end

