-- ==== Sys2Proof/Laws/Memory.lean ====
section
/-!
SUPPORT. Memory and the set of dirty addresses: read after write, the canonical forms kept by every operation, and
what a run of stored bytes reads as.
-/

namespace Sys2Proof.Machine

/-! ## One byte -/

/-- A byte after a write: the one written, or as before. -/
theorem Memory.read_write (m : Memory) (a x : Nat) (b : Byte) :
    Memory.read (Memory.write m a b) x = if x = a then some b else Memory.read m x := by
  induction m with
  | nil => simp [Memory.write, Memory.read, eq_comm]
  | cons c m ih =>
    unfold Memory.write
    split
    · by_cases h : x = a
      · simp [Memory.read, h]
      · simp [Memory.read, h, Ne.symm h]
    · split
      · rename_i h1 h2
        by_cases h : x = a
        · simp [Memory.read, h]
        · simp [Memory.read, h, Ne.symm h, h2]
      · rename_i h1 h2
        simp only [Memory.read, ih]
        split
        · rename_i h3
          have : x ≠ a := fun e => h2 (h3.trans e)
          simp [this]
        · rfl

theorem addrInsert_mem (a x : Nat) (l : List Nat) : x ∈ addrInsert a l ↔ x = a ∨ x ∈ l := by
  induction l with
  | nil => simp [addrInsert]
  | cons y l ih =>
    unfold addrInsert
    split
    · simp
    · split
      · rename_i h; subst h; simp
      · simp [ih, or_left_comm]

theorem Memory.mem_write {m : Memory} {a : Nat} {b : Byte} {c : Host.Cell} (h : c ∈ Memory.write m a b) :
    c = (a, b) ∨ c ∈ m := by
  induction m with
  | nil => simpa [Memory.write] using h
  | cons d m ih =>
    unfold Memory.write at h
    split at h
    · simpa using h
    · split at h
      · rcases List.mem_cons.1 h with h | h
        · exact .inl h
        · exact .inr (List.mem_cons_of_mem _ h)
      · rcases List.mem_cons.1 h with h | h
        · exact .inr (h ▸ List.mem_cons_self)
        · rcases ih h with h | h
          · exact .inl h
          · exact .inr (List.mem_cons_of_mem _ h)

/-! ## The canonical forms are kept -/

theorem Memory.wf_write {m : Memory} {a : Nat} {b : Byte} (h : Memory.wf m = true) (ha : a < addressSpace) :
    Memory.wf (Memory.write m a b) = true := by
  induction m with
  | nil => simpa [Memory.write, Memory.wf] using ha
  | cons c m ih =>
    simp only [Memory.wf, Bool.and_eq_true, decide_eq_true_eq, List.all_eq_true] at h
    obtain ⟨⟨h1, h2⟩, h3⟩ := h
    unfold Memory.write
    split
    · rename_i hac
      simp only [Memory.wf, Bool.and_eq_true, decide_eq_true_eq, List.all_eq_true, List.mem_cons]
      refine ⟨⟨ha, ?_⟩, ⟨h1, h2⟩, h3⟩
      rintro d (rfl | hd)
      · exact hac
      · exact Nat.lt_trans hac (h2 d hd)
    · split
      · rename_i hca
        simp only [Memory.wf, Bool.and_eq_true, decide_eq_true_eq, List.all_eq_true]
        exact ⟨⟨ha, fun d hd => hca ▸ h2 d hd⟩, h3⟩
      · simp only [Memory.wf, Bool.and_eq_true, decide_eq_true_eq, List.all_eq_true]
        refine ⟨⟨h1, fun d hd => ?_⟩, ih h3⟩
        rcases Memory.mem_write hd with rfl | hd
        · dsimp only; omega
        · exact h2 d hd

theorem addrInsert_rising {a : Nat} {l : List Nat} (h : addrsRising l = true) :
    addrsRising (addrInsert a l) = true := by
  induction l with
  | nil => rfl
  | cons x l ih =>
    have h' := h
    simp only [addrsRising, Bool.and_eq_true, decide_eq_true_eq, List.all_eq_true] at h
    unfold addrInsert
    split
    · rename_i hax
      simp only [addrsRising, Bool.and_eq_true, decide_eq_true_eq, List.all_eq_true, List.mem_cons]
      refine ⟨?_, h.1, h.2⟩
      rintro y (rfl | hy)
      · exact hax
      · exact Nat.lt_trans hax (h.1 y hy)
    · split
      · exact h'
      · simp only [addrsRising, Bool.and_eq_true, decide_eq_true_eq, List.all_eq_true]
        refine ⟨fun y hy => ?_, ih h.2⟩
        rcases (addrInsert_mem _ _ _).1 hy with rfl | hy
        · omega
        · exact h.1 y hy

/-- Two memories in canonical form that read alike are equal data. -/
theorem Memory.eq_of_read {m n : Memory} (hm : Memory.wf m = true) (hn : Memory.wf n = true)
    (h : ∀ a, Memory.read m a = Memory.read n a) : m = n := by
  have low : ∀ (l : Memory) (c : Host.Cell) (a : Nat), Memory.wf (c :: l) = true → a < c.1 →
      Memory.read (c :: l) a = none := by
    intro l
    induction l with
    | nil => intro c a _ ha; simp [Memory.read, Nat.ne_of_gt ha]
    | cons d l ih =>
      intro c a hw ha
      simp only [Memory.wf, Bool.and_eq_true, decide_eq_true_eq, List.all_eq_true] at hw
      have hd : c.1 < d.1 := hw.1.2 d List.mem_cons_self
      have := ih d a (by simpa [Memory.wf] using hw.2) (Nat.lt_trans ha hd)
      simpa [Memory.read, Nat.ne_of_gt ha] using this
  have beyond : ∀ (l : Memory) (c : Host.Cell), Memory.wf (c :: l) = true → Memory.read l c.1 = none := by
    intro l c hw
    cases l with
    | nil => rfl
    | cons d l =>
      simp only [Memory.wf, Bool.and_eq_true, decide_eq_true_eq, List.all_eq_true] at hw
      exact low l d c.1 (by simpa [Memory.wf] using hw.2) (hw.1.2 d List.mem_cons_self)
  induction m generalizing n with
  | nil =>
    cases n with
    | nil => rfl
    | cons c n => have := h c.1; simp [Memory.read] at this
  | cons c m ih =>
    cases n with
    | nil => have := h c.1; simp [Memory.read] at this
    | cons d n =>
      have hcd : c.1 = d.1 := by
        rcases Nat.lt_trichotomy c.1 d.1 with hlt | heq | hlt
        · have := h c.1; rw [low n d c.1 hn hlt] at this; simp [Memory.read] at this
        · exact heq
        · have := h d.1; rw [low m c d.1 hm hlt] at this; simp [Memory.read] at this
      have hb : c.2 = d.2 := by have := h c.1; simpa [Memory.read, hcd] using this
      have htail : m = n := by
        refine ih ?_ ?_ fun a => ?_
        · simp only [Memory.wf, Bool.and_eq_true] at hm; exact hm.2
        · simp only [Memory.wf, Bool.and_eq_true] at hn; exact hn.2
        · by_cases ha : c.1 = a
          · have e1 := beyond m c hm
            have e2 := beyond n d hn
            rw [← ha, e1, hcd, e2]
          · have := h a
            have ha' : d.1 ≠ a := hcd ▸ ha
            simpa [Memory.read, ha, ha'] using this
      rw [htail, Prod.ext hcd hb]

/-! ## Stores -/

theorem State.byteAt_storeByte (s : State) (a x : Nat) (b : Byte) :
    (s.storeByte a b).byteAt x = if x = a then some b else s.byteAt x := Memory.read_write _ _ _ _

theorem State.dirty_storeByte (s : State) (a x : Nat) (b : Byte) :
    x ∈ (s.storeByte a b).dirtyCode ↔ x = a ∨ x ∈ s.dirtyCode := addrInsert_mem _ _ _

/-- A byte after a run of stores: the stored byte inside the run, as before outside it (20_memory.md R22). -/
theorem State.byteAt_storeBytes (s : State) (a x : Nat) (bs : List Byte) :
    (s.storeBytes a bs).byteAt x =
      if a ≤ x ∧ x < a + bs.length then bs[x - a]? else s.byteAt x := by
  induction bs generalizing s a with
  | nil => simp [State.storeBytes]
  | cons b bs ih =>
    rw [State.storeBytes, ih, State.byteAt_storeByte]
    rcases Nat.lt_trichotomy x a with h | h | h
    · have h1 : ¬ (a + 1 ≤ x ∧ x < a + 1 + bs.length) := by omega
      have h2 : ¬ (a ≤ x ∧ x < a + (b :: bs).length) := by omega
      rw [if_neg h1, if_neg h2, if_neg (by omega)]
    · subst h
      have h1 : ¬ (x + 1 ≤ x ∧ x < x + 1 + bs.length) := by omega
      have h2 : x ≤ x ∧ x < x + (b :: bs).length := by simp
      rw [if_neg h1, if_pos h2, if_pos rfl]; simp
    · by_cases hx : x < a + 1 + bs.length
      · have h1 : a + 1 ≤ x ∧ x < a + 1 + bs.length := by omega
        have h2 : a ≤ x ∧ x < a + (b :: bs).length := by simp; omega
        rw [if_pos h1, if_pos h2, show x - a = (x - (a + 1)) + 1 by omega, List.getElem?_cons_succ]
      · have h1 : ¬ (a + 1 ≤ x ∧ x < a + 1 + bs.length) := by omega
        have h2 : ¬ (a ≤ x ∧ x < a + (b :: bs).length) := by simp; omega
        rw [if_neg h1, if_neg h2, if_neg (by omega)]

/-- The dirty addresses after a run of stores: those before, and the run (20_memory.md R22). -/
theorem State.dirty_storeBytes (s : State) (a x : Nat) (bs : List Byte) :
    x ∈ (s.storeBytes a bs).dirtyCode ↔ x ∈ s.dirtyCode ∨ (a ≤ x ∧ x < a + bs.length) := by
  induction bs generalizing s a with
  | nil => simp [State.storeBytes]
  | cons b bs ih =>
    rw [State.storeBytes, ih, State.dirty_storeByte, List.length_cons]
    constructor
    · rintro ((rfl | h) | h)
      · exact .inr ⟨Nat.le_refl _, by omega⟩
      · exact .inl h
      · exact .inr (by omega)
    · rintro (h | h)
      · exact .inl (.inr h)
      · by_cases hx : x = a
        · exact .inl (.inl hx)
        · exact .inr (by omega)

/-- Memory from a run of stores keeps the canonical form, inside the address space. -/
theorem State.storeBytes_wf {s : State} {a : Nat} {bs : List Byte} (h : Memory.wf s.mem = true)
    (ha : a + bs.length ≤ addressSpace) : Memory.wf (s.storeBytes a bs).mem = true := by
  induction bs generalizing s a with
  | nil => exact h
  | cons b bs ih =>
    simp only [List.length_cons] at ha
    exact ih (s := s.storeByte a b) (Memory.wf_write h (by omega)) (by omega)

theorem State.storeBytes_rising {s : State} {a : Nat} {bs : List Byte} (h : addrsRising s.dirtyCode = true) :
    addrsRising (s.storeBytes a bs).dirtyCode = true := by
  induction bs generalizing s a with
  | nil => exact h
  | cons b bs ih => exact ih (s := s.storeByte a b) (addrInsert_rising h)

/-- Every entry of memory after a run of stores is an entry from before or one of the run. -/
theorem State.mem_storeBytes {s : State} {a : Nat} {bs : List Byte} {c : Host.Cell}
    (h : c ∈ (s.storeBytes a bs).mem) : c ∈ s.mem ∨ (a ≤ c.1 ∧ c.1 < a + bs.length) := by
  induction bs generalizing s a with
  | nil => exact .inl h
  | cons b bs ih =>
    rcases ih (s := s.storeByte a b) h with h | h
    · rcases Memory.mem_write h with rfl | h
      · exact .inr (by simp)
      · exact .inl h
    · exact .inr (by simp only [List.length_cons]; omega)

/-- The same for a run stored part-way: old or new in each byte, and only inside the run (44_load_store_multiple.md
R94; 45_load_store_string.md R105). -/
theorem State.byteAt_drawBytes (s : State) (a c x : Nat) (bs : List Byte) :
    (s.drawBytes a c bs).byteAt x = s.byteAt x ∨
      (a ≤ x ∧ x < a + bs.length ∧ s.admits x = true ∧ (s.drawBytes a c bs).byteAt x = bs[x - a]?) := by
  induction bs generalizing s a c with
  | nil => exact .inl rfl
  | cons b bs ih =>
    rw [State.drawBytes]
    have key := ih (s := if Config.drawNew c && s.admits a then s.storeByte a b else s) (a + 1) (c + 1)
    rcases key with h | ⟨h1, h2, h3, h4⟩
    · rw [h]
      split
      · rename_i hd
        rw [State.byteAt_storeByte]
        by_cases hx : x = a
        · subst hx
          simp only [Bool.and_eq_true] at hd
          exact .inr ⟨Nat.le_refl _, by simp, hd.2, by simp⟩
        · exact .inl (by simp [hx])
      · exact .inl rfl
    · refine .inr ⟨by omega, by simp only [List.length_cons]; omega, ?_, ?_⟩
      · rw [← h3]; split <;> rfl
      · rw [h4, show x - a = (x - (a + 1)) + 1 by omega, List.getElem?_cons_succ]

/-- What a run stored part-way makes dirty lies in the run, is admitted and holds the byte of the run. -/
theorem State.dirty_drawBytes {s : State} {a c x : Nat} {bs : List Byte}
    (h : x ∈ (s.drawBytes a c bs).dirtyCode) :
    x ∈ s.dirtyCode ∨ (a ≤ x ∧ x < a + bs.length ∧ s.admits x = true) := by
  induction bs generalizing s a c with
  | nil => exact .inl h
  | cons b bs ih =>
    rcases ih (s := if Config.drawNew c && s.admits a then s.storeByte a b else s) h with h | h
    · split at h
      · rename_i hd
        rcases (State.dirty_storeByte _ _ _ _).1 h with rfl | h
        · simp only [Bool.and_eq_true] at hd
          exact .inr ⟨Nat.le_refl _, by simp, hd.2⟩
        · exact .inl h
      · exact .inl h
    · refine .inr ⟨by omega, by simp only [List.length_cons]; omega, ?_⟩
      rw [← h.2.2]; split <;> rfl

/-- A dirty address stays dirty through a run stored part-way. -/
theorem State.dirty_drawBytes_mono {s : State} {a c x : Nat} {bs : List Byte} (h : x ∈ s.dirtyCode) :
    x ∈ (s.drawBytes a c bs).dirtyCode := by
  induction bs generalizing s a c with
  | nil => exact h
  | cons b bs ih =>
    refine ih (s := if Config.drawNew c && s.admits a then s.storeByte a b else s) ?_
    split
    · exact (State.dirty_storeByte _ _ _ _).2 (.inr h)
    · exact h

/-- Values and dirty marks go together: where every dirty byte holds a value, so it does after a run stored
part-way. -/
theorem State.drawBytes_dirty_holds {s : State} {a c : Nat} {bs : List Byte}
    (h : ∀ x ∈ s.dirtyCode, (s.byteAt x).isSome = true) :
    ∀ x ∈ (s.drawBytes a c bs).dirtyCode, ((s.drawBytes a c bs).byteAt x).isSome = true := by
  induction bs generalizing s a c with
  | nil => exact h
  | cons b bs ih =>
    refine ih (s := if Config.drawNew c && s.admits a then s.storeByte a b else s) ?_
    split
    · intro x hx
      rw [State.byteAt_storeByte]
      rcases (State.dirty_storeByte _ _ _ _).1 hx with rfl | hx
      · simp
      · split
        · rfl
        · exact h x hx
    · exact h

theorem State.drawBytes_wf {s : State} {a c : Nat} {bs : List Byte} (h : Memory.wf s.mem = true)
    (ha : a + bs.length ≤ addressSpace) : Memory.wf (s.drawBytes a c bs).mem = true := by
  induction bs generalizing s a c with
  | nil => exact h
  | cons b bs ih =>
    simp only [List.length_cons] at ha
    refine ih (s := if Config.drawNew c && s.admits a then s.storeByte a b else s) ?_ (by omega)
    split
    · exact Memory.wf_write h (by omega)
    · exact h

theorem State.drawBytes_rising {s : State} {a c : Nat} {bs : List Byte} (h : addrsRising s.dirtyCode = true) :
    addrsRising (s.drawBytes a c bs).dirtyCode = true := by
  induction bs generalizing s a c with
  | nil => exact h
  | cons b bs ih =>
    refine ih (s := if Config.drawNew c && s.admits a then s.storeByte a b else s) ?_
    split
    · exact addrInsert_rising h
    · exact h

theorem State.mem_drawBytes {s : State} {a c : Nat} {bs : List Byte} {d : Host.Cell}
    (h : d ∈ (s.drawBytes a c bs).mem) :
    d ∈ s.mem ∨ (a ≤ d.1 ∧ d.1 < a + bs.length ∧ s.admits d.1 = true) := by
  induction bs generalizing s a c with
  | nil => exact .inl h
  | cons b bs ih =>
    rcases ih (s := if Config.drawNew c && s.admits a then s.storeByte a b else s) h with h | h
    · split at h
      · rename_i hd
        rcases Memory.mem_write h with rfl | h
        · simp only [Bool.and_eq_true] at hd
          exact .inr ⟨Nat.le_refl _, by simp, hd.2⟩
        · exact .inl h
      · exact .inl h
    · refine .inr ⟨by omega, by simp only [List.length_cons]; omega, ?_⟩
      rw [← h.2.2]; split <;> rfl

/-- Placing bytes from outside keeps the canonical form, inside the address space. -/
theorem Memory.wf_place {m : Memory} {a : Nat} {bs : List Byte} (h : Memory.wf m = true)
    (ha : a + bs.length ≤ addressSpace) : Memory.wf (Memory.place m a bs) = true := by
  induction bs generalizing m a with
  | nil => exact h
  | cons b bs ih =>
    simp only [List.length_cons] at ha
    exact ih (Memory.wf_write h (by omega)) (by omega)

/-- Memory after placing bytes from outside reads as the bytes inside the run, as before outside it. -/
theorem Memory.read_place (m : Memory) (a x : Nat) (bs : List Byte) :
    Memory.read (Memory.place m a bs) x =
      if a ≤ x ∧ x < a + bs.length then bs[x - a]? else Memory.read m x := by
  have e : ∀ (s : State), s.mem = m → (s.storeBytes a bs).mem = Memory.place m a bs := by
    clear x
    induction bs generalizing m a with
    | nil => intro s h; exact h
    | cons b bs ih => intro s h; exact ih (m := Memory.write m a b) (a := a + 1) (s.storeByte a b) (by simp [h])
  have := State.byteAt_storeBytes { State.reset with mem := m } a x bs
  rw [State.byteAt, e _ rfl] at this
  exact this

end Sys2Proof.Machine
end

