-- ==== Sys2Proof/Laws/Access.lean ====
section
/-!
SUPPORT. One lemma per shared operation that says once everything it can do: reading and checking a block of bytes, a
single-item load, a single-item store, the load and the store of a run of registers.
-/

namespace Sys2Proof.Machine

/-! ## Admission -/

/-- A block without an admission fault: every byte is admitted (20_memory.md R21, R22). -/
theorem State.admissionFault_none {s : State} {a g k m : Nat} :
    s.admissionFault a g k m = none ↔ ∀ j, j < m → s.admits (a + k + j) = true := by
  induction m generalizing k with
  | zero => simp [State.admissionFault]
  | succ m ih =>
    rw [State.admissionFault]
    split
    · rename_i hadm
      rw [ih]
      constructor
      · intro h j hj
        cases j with
        | zero => simpa using hadm
        | succ j => have := h j (by omega); rwa [show a + k + (j + 1) = a + (k + 1) + j by omega]
      · intro h j hj
        have := h (j + 1) (by omega)
        rwa [show a + k + (j + 1) = a + (k + 1) + j by omega] at this
    · rename_i hadm
      simp only [reduceCtorEq, false_iff, Classical.not_forall]
      exact ⟨0, by omega, by simpa using hadm⟩

/-- A block with an admission fault: the DSI of its first byte that is not admitted (20_memory.md R21, R22). -/
theorem State.admissionFault_some {s : State} {a g k m : Nat} {f : Fault} :
    s.admissionFault a g k m = some f ↔
      ∃ j, j < m ∧ (∀ i, i < j → s.admits (a + k + i) = true) ∧ s.admits (a + k + j) = false ∧
        f = .dsi (itemAddr a g (k + j)) := by
  induction m generalizing k with
  | zero => simp [State.admissionFault]
  | succ m ih =>
    rw [State.admissionFault]
    split
    · rename_i hadm
      rw [ih]
      constructor
      · rintro ⟨j, hj, hpre, h1, h2⟩
        refine ⟨j + 1, by omega, fun i hi => ?_, ?_, ?_⟩
        · cases i with
          | zero => simpa using hadm
          | succ i => have := hpre i (by omega); rwa [show a + k + (i + 1) = a + (k + 1) + i by omega]
        · rwa [show a + k + (j + 1) = a + (k + 1) + j by omega]
        · rwa [show k + (j + 1) = k + 1 + j by omega]
      · rintro ⟨j, hj, hpre, h1, h2⟩
        cases j with
        | zero => rw [Nat.add_zero, hadm] at h1; simp at h1
        | succ j =>
          refine ⟨j, by omega, fun i hi => ?_, ?_, ?_⟩
          · have := hpre (i + 1) (by omega); rwa [show a + k + (i + 1) = a + (k + 1) + i by omega] at this
          · rwa [show a + k + (j + 1) = a + (k + 1) + j by omega] at h1
          · rwa [show k + (j + 1) = k + 1 + j by omega] at h2
    · rename_i hadm
      simp only [Option.some.injEq]
      constructor
      · rintro rfl
        exact ⟨0, by omega, by simp, by simpa using hadm, rfl⟩
      · rintro ⟨j, hj, hpre, h1, h2⟩
        cases j with
        | zero => exact h2.symm
        | succ j => exact absurd (by simpa using hpre 0 (by omega)) hadm

/-- Byte `k < g` of an access of one item lies in the item at the access's own address: a DSI of a single item
records the EA (60_exceptions.md R110). -/
theorem itemAddr_single {ea : Word} {g k : Nat} (h : k < g) : itemAddr ea.toNat g k = ea := by
  simp [itemAddr, Nat.div_eq_of_lt h]

/-! ## Items and blocks read -/

/-- A byte can be read: it is admitted and holds a value. -/
abbrev State.readable (s : State) (a : Nat) : Prop := s.admits a = true ∧ (s.byteAt a).isSome = true

/-- Bytes that all hold values. -/
theorem State.byteValues_ok {s : State} {a m : Nat} {bs : List Byte} :
    s.byteValues a m = .ok bs ↔ bs.length = m ∧ ∀ j, j < m → s.byteAt (a + j) = bs[j]? := by
  induction m generalizing a bs with
  | zero =>
    simp only [State.byteValues, Except.ok.injEq, List.length_eq_zero_iff, Nat.not_lt_zero, false_implies,
      implies_true, and_true]
    exact eq_comm
  | succ m ih =>
    rw [State.byteValues]
    constructor
    · intro h
      cases hb : s.byteAt a with
      | none => rw [hb] at h; cases h
      | some b =>
        rw [hb] at h
        cases hr : s.byteValues (a + 1) m with
        | error f => rw [hr] at h; cases h
        | ok cs =>
          rw [hr] at h
          cases h
          obtain ⟨hl, h⟩ := ih.1 hr
          refine ⟨by simp [hl], fun j hj => ?_⟩
          cases j with
          | zero => simpa using hb
          | succ j =>
            have := h j (by omega)
            rwa [show a + (j + 1) = a + 1 + j by omega, List.getElem?_cons_succ]
    · rintro ⟨hl, h⟩
      cases bs with
      | nil => simp at hl
      | cons b bs =>
        have h0 : s.byteAt a = some b := by simpa using h 0 (by omega)
        have hr : s.byteValues (a + 1) m = .ok bs := ih.2 ⟨by simpa using hl, fun j hj => by
          have := h (j + 1) (by omega)
          rwa [show a + (j + 1) = a + 1 + j by omega, List.getElem?_cons_succ] at this⟩
        simp only [h0, hr]

/-- Bytes of which one holds no value: the first of these decides. -/
theorem State.byteValues_error {s : State} {a m : Nat} {f : Fault} :
    s.byteValues a m = .error f ↔
      ∃ j, j < m ∧ (∀ i, i < j → (s.byteAt (a + i)).isSome = true) ∧ s.byteAt (a + j) = none ∧
        f = .unwrittenMemory (BitVec.ofNat 32 (a + j)) := by
  induction m generalizing a with
  | zero => simp [State.byteValues]
  | succ m ih =>
    rw [State.byteValues]
    constructor
    · intro h
      cases hb : s.byteAt a with
      | none => rw [hb] at h; cases h; exact ⟨0, by omega, by simp, hb, rfl⟩
      | some b =>
        rw [hb] at h
        cases hr : s.byteValues (a + 1) m with
        | ok cs => rw [hr] at h; cases h
        | error g =>
          rw [hr] at h
          cases h
          obtain ⟨j, hj, hpre, hn, hf⟩ := ih.1 hr
          refine ⟨j + 1, by omega, fun i hi => ?_, ?_, ?_⟩
          · cases i with
            | zero => simp [hb]
            | succ i => have := hpre i (by omega); rwa [show a + (i + 1) = a + 1 + i by omega]
          · rwa [show a + (j + 1) = a + 1 + j by omega]
          · rwa [show a + (j + 1) = a + 1 + j by omega]
    · rintro ⟨j, hj, hpre, hn, hf⟩
      cases j with
      | zero => rw [Nat.add_zero] at hn hf; rw [hn, hf]
      | succ j =>
        obtain ⟨b, hb⟩ := Option.isSome_iff_exists.1 (hpre 0 (by omega))
        rw [Nat.add_zero] at hb
        have hr : s.byteValues (a + 1) m = .error f := ih.2 ⟨j, by omega, fun i hi => by
          have := hpre (i + 1) (by omega); rwa [show a + (i + 1) = a + 1 + i by omega] at this,
          by rwa [show a + (j + 1) = a + 1 + j by omega] at hn, by rwa [show a + (j + 1) = a + 1 + j by omega] at hf⟩
        rw [hb, hr]

/-- An item read whole: exactly its bytes, each admitted and holding its value (20_memory.md R21). -/
theorem State.readItem_ok {s : State} {a n : Nat} {bs : List Byte} :
    s.readItem a n = .ok bs ↔
      bs.length = n ∧ ∀ j, j < n → s.admits (a + j) = true ∧ s.byteAt (a + j) = bs[j]? := by
  unfold State.readItem
  cases hw : s.admissionFault a n 0 n with
  | none =>
    have hadm := State.admissionFault_none.1 hw
    simp only [Nat.add_zero] at hadm
    simp only [State.byteValues_ok]
    exact and_congr_right fun _ => forall_congr' fun j => forall_congr' fun hj =>
      (and_iff_right (hadm j hj)).symm
  | some f =>
    obtain ⟨j, hj, -, hn, -⟩ := State.admissionFault_some.1 hw
    rw [Nat.add_zero] at hn
    simp only [reduceCtorEq, false_iff, not_and]
    intro _ h
    rw [(h j hj).1] at hn
    cases hn

/-- An item that cannot be read: DSI of its address where a byte of it is not admitted, and otherwise UnwrittenMemory
of its first byte without a value (60_exceptions.md R110, R114, R116). -/
theorem State.readItem_error {s : State} {a n : Nat} {f : Fault} :
    s.readItem a n = .error f ↔
      ((∃ j, j < n ∧ s.admits (a + j) = false) ∧ f = .dsi (BitVec.ofNat 32 a)) ∨
      ((∀ j, j < n → s.admits (a + j) = true) ∧
        ∃ j, j < n ∧ (∀ i, i < j → (s.byteAt (a + i)).isSome = true) ∧ s.byteAt (a + j) = none ∧
          f = .unwrittenMemory (BitVec.ofNat 32 (a + j))) := by
  unfold State.readItem
  cases hw : s.admissionFault a n 0 n with
  | none =>
    have hadm := State.admissionFault_none.1 hw
    simp only [Nat.add_zero] at hadm
    simp only [State.byteValues_error]
    constructor
    · exact fun h => .inr ⟨hadm, h⟩
    · rintro (⟨⟨j, hj, hn⟩, -⟩ | ⟨-, h⟩)
      · rw [hadm j hj] at hn; cases hn
      · exact h
  | some g =>
    obtain ⟨j, hj, -, hn, rfl⟩ := State.admissionFault_some.1 hw
    rw [Nat.add_zero] at hn
    have ha : itemAddr a n (0 + j) = BitVec.ofNat 32 a := by
      simp [itemAddr, Nat.div_eq_of_lt hj]
    rw [ha]
    simp only [Except.error.injEq]
    constructor
    · rintro rfl; exact .inl ⟨⟨j, hj, hn⟩, rfl⟩
    · rintro (⟨-, rfl⟩ | ⟨h, -⟩)
      · rfl
      · rw [h j hj] at hn; cases hn

/-- A block of items read whole: exactly its bytes, each admitted and holding its value. -/
theorem State.readItems_ok {s : State} {a g c : Nat} {bs : List Byte} :
    s.readItems a g c = .ok bs ↔
      bs.length = c * g ∧ ∀ j, j < c * g → s.admits (a + j) = true ∧ s.byteAt (a + j) = bs[j]? := by
  induction c generalizing a bs with
  | zero =>
    simp only [State.readItems, Except.ok.injEq, Nat.zero_mul, List.length_eq_zero_iff, Nat.not_lt_zero,
      false_implies, implies_true, and_true]
    exact eq_comm
  | succ c ih =>
    have hm : (c + 1) * g = g + c * g := by rw [Nat.succ_mul, Nat.add_comm]
    rw [State.readItems, hm]
    constructor
    · intro h
      cases hi : s.readItem a g with
      | error f => rw [hi] at h; cases h
      | ok is =>
        rw [hi] at h
        cases hr : s.readItems (a + g) g c with
        | error f => rw [hr] at h; cases h
        | ok cs =>
          rw [hr] at h
          cases h
          obtain ⟨li, hi⟩ := State.readItem_ok.1 hi
          obtain ⟨lc, hc⟩ := ih.1 hr
          refine ⟨by simp [li, lc], fun j hj => ?_⟩
          by_cases hjg : j < g
          · rw [List.getElem?_append_left (by omega)]; exact hi j hjg
          · have := hc (j - g) (by omega)
            rw [show a + g + (j - g) = a + j by omega] at this
            rwa [List.getElem?_append_right (by omega), li]
    · rintro ⟨hl, h⟩
      have hi : s.readItem a g = .ok (bs.take g) := State.readItem_ok.2 ⟨by simp; omega, fun j hj => by
        rw [List.getElem?_take_of_lt hj]; exact h j (by omega)⟩
      have hr : s.readItems (a + g) g c = .ok (bs.drop g) := ih.2 ⟨by simp; omega, fun j hj => by
        rw [List.getElem?_drop, Nat.add_assoc]; exact h (g + j) (by omega)⟩
      rw [hi, hr]
      simp

/-- A block that cannot be read whole: the items before the failing one can be read, and that one decides the
exception. -/
theorem State.readItems_error {s : State} {a g c : Nat} {f : Fault} :
    s.readItems a g c = .error f ↔
      ∃ i, i < c ∧ (∀ j, j < i * g → s.readable (a + j)) ∧ s.readItem (a + i * g) g = .error f := by
  induction c generalizing a with
  | zero => simp [State.readItems]
  | succ c ih =>
    rw [State.readItems]
    cases hi : s.readItem a g with
    | error e =>
      simp only [Except.error.injEq]
      constructor
      · rintro rfl; exact ⟨0, by omega, by simp, by simpa using hi⟩
      · rintro ⟨i, -, hpre, h⟩
        cases i with
        | zero => rw [Nat.zero_mul, Nat.add_zero, hi] at h; simpa using h
        | succ i =>
          have hall : ∀ j, j < g → s.readable (a + j) := fun j hj => hpre j (by
            rw [Nat.succ_mul]; omega)
          rcases State.readItem_error.1 hi with ⟨⟨j, hj, hn⟩, -⟩ | ⟨-, j, hj, -, hn, -⟩
          · rw [(hall j hj).1] at hn; cases hn
          · have := (hall j hj).2; rw [hn] at this; cases this
    | ok bs =>
      have hb := (State.readItem_ok.1 hi)
      have key : s.readItems (a + g) g c = .error f ↔
          ∃ i, i < c + 1 ∧ (∀ j, j < i * g → s.readable (a + j)) ∧ s.readItem (a + i * g) g = .error f := by
        rw [ih]
        constructor
        · rintro ⟨i, hic, hpre, h⟩
          refine ⟨i + 1, by omega, fun j hj => ?_, ?_⟩
          · by_cases hjg : j < g
            · have := hb.2 j hjg
              exact ⟨this.1, by rw [this.2, List.getElem?_eq_getElem (by omega)]; rfl⟩
            · rw [Nat.succ_mul] at hj
              have := hpre (j - g) (by omega)
              rwa [show a + g + (j - g) = a + j by omega] at this
          · rwa [Nat.succ_mul, show a + (i * g + g) = a + g + i * g by omega]
        · rintro ⟨i, hic, hpre, h⟩
          cases i with
          | zero => rw [Nat.zero_mul, Nat.add_zero, hi] at h; cases h
          | succ i =>
            refine ⟨i, by omega, fun j hj => ?_, ?_⟩
            · have := hpre (g + j) (by rw [Nat.succ_mul]; omega)
              rwa [← Nat.add_assoc] at this
            · rwa [Nat.succ_mul, show a + (i * g + g) = a + g + i * g by omega] at h
      rw [← key]
      cases s.readItems (a + g) g c <;> simp

/-! ## Single items -/

/-- `MemRead` of a single item that completes (20_memory.md R21, R23). -/
theorem State.memRead_ok {s : State} {ea v : Word} {n : Nat} :
    s.memRead ea n = .ok v ↔
      s.misaligned ea n = false ∧ ∃ bs, s.readItem ea.toNat n = .ok bs ∧ v = beWord bs := by
  unfold State.memRead
  split
  · rename_i h; simp [h]
  · rename_i h
    cases s.readItem ea.toNat n <;> simp [h, eq_comm]

/-- What a single-item load answers when it answers a next state: the item was read and `k` of it advanced, or an
exception was recorded and nothing else changed (41_integer_load.md R51). -/
theorem State.withItem_next {s t : State} {ea : Word} {n : Nat} {k : Word → State}
    (h : s.withItem ea n k = .next t) :
    (∃ v, s.memRead ea n = .ok v ∧ t = (k v).advance) ∨ (∃ f, s.memRead ea n = .error f ∧ t = s.raise f) := by
  unfold State.withItem at h
  split at h
  · simp at h
  · cases hr : s.memRead ea n with
    | ok v => rw [hr] at h; exact .inl ⟨v, rfl, by simpa using h.symm⟩
    | error f => rw [hr] at h; exact .inr ⟨f, rfl, by simpa using h.symm⟩

/-- What a single-item store answers when it answers a next state: the bytes stored and `k` of that advanced, or an
exception recorded and nothing else changed (42_integer_store.md R70). -/
theorem State.withStore_next {s t : State} {ea v : Word} {n : Nat} {k : State → State}
    (h : s.withStore ea n v k = .next t) :
    (pastTop ea n = false ∧ s.misaligned ea n = false ∧ s.admissionFault ea.toNat n 0 n = none ∧
      t = (k (s.storeBytes ea.toNat (beBytes n v))).advance) ∨
    (∃ f, t = s.raise f) := by
  unfold State.withStore at h
  split at h
  · simp at h
  · rename_i hp
    split at h
    · exact .inr ⟨_, by simpa using h.symm⟩
    · rename_i hm
      cases hw : s.admissionFault ea.toNat n 0 n with
      | some f => rw [hw] at h; exact .inr ⟨f, by simpa using h.symm⟩
      | none =>
        rw [hw] at h
        exact .inl ⟨by simpa using hp, by simpa using hm, rfl, by simpa using h.symm⟩

/-! ## Runs of registers -/

/-- What the load of a run answers (44_load_store_multiple.md R91, R94; 45_load_store_string.md R99, R105). -/
theorem State.loadRun_next {s t : State} {rD : Reg} {ea : Word} {n g : Nat} (h : s.loadRun rD ea n g = .next t) :
    (∃ bs, s.readItems ea.toNat g (n / g) = .ok bs ∧ t = (s.setRun rD (runWords bs)).advance) ∨
    (∃ f, s.readItems ea.toNat g (n / g) = .error f ∧ t = (s.drawRun rD ea.toNat n).raise f) := by
  unfold State.loadRun at h
  cases hr : s.readItems ea.toNat g (n / g) with
  | ok bs => rw [hr] at h; exact .inl ⟨bs, rfl, by simpa using h.symm⟩
  | error f => rw [hr] at h; exact .inr ⟨f, rfl, by simpa using h.symm⟩

/-- What the store of a run answers (R92, R94; R101, R105). -/
theorem State.storeRun_next {s t : State} {rS : Reg} {ea : Word} {n g : Nat} (h : s.storeRun rS ea n g = .next t) :
    (s.admissionFault ea.toNat g 0 n = none ∧ t = (s.storeBytes ea.toNat (s.runBytes rS n)).advance) ∨
    (∃ f, s.admissionFault ea.toNat g 0 n = some f ∧ t = (s.drawBlock ea.toNat (s.runBytes rS n)).raise f) := by
  unfold State.storeRun at h
  cases hw : s.admissionFault ea.toNat g 0 n with
  | none => rw [hw] at h; exact .inl ⟨rfl, by simpa using h.symm⟩
  | some f => rw [hw] at h; exact .inr ⟨f, rfl, by simpa using h.symm⟩

/-- The checks of lmw and stmw before their loop (R91 to R93). -/
theorem State.withBlock_next {s t : State} {ea : Word} {n : Nat} {k : Out} (h : s.withBlock ea n k = .next t) :
    (pastTop ea n = false ∧ ea.toNat % 4 ≠ 0 ∧ t = s.raise (.alignment ea)) ∨
    (pastTop ea n = false ∧ ea.toNat % 4 = 0 ∧ k = .next t) := by
  unfold State.withBlock at h
  split at h
  · simp at h
  · rename_i hp
    split at h
    · rename_i ha; exact .inl ⟨by simpa using hp, ha, by simpa using h.symm⟩
    · rename_i ha; exact .inr ⟨by simpa using hp, by simpa using ha, h⟩

/-- The check of the string instructions before their loop (R99 to R102). -/
theorem withString_next {t : State} {ea : Word} {n : Nat} {k : Out} (h : withString ea n k = .next t) :
    pastTop ea n = false ∧ k = .next t := by
  unfold withString at h
  split at h
  · simp at h
  · rename_i hp; exact ⟨by simpa using hp, h⟩

@[simp] theorem State.runBytes_length (s : State) (r : Reg) (n : Nat) : (s.runBytes r n).length = n := by
  simp [State.runBytes]

@[simp] theorem runWords_length (bs : List Byte) : (runWords bs).length = registerCount bs.length := by
  simp [runWords]

theorem State.runBytes_getElem? (s : State) (r : Reg) (n k : Nat) (h : k < n) :
    (s.runBytes r n)[k]? = some (s.runByte r k) := by
  simp [State.runBytes, h]

theorem runWords_getElem? (bs : List Byte) (j : Nat) (h : j < registerCount bs.length) :
    (runWords bs)[j]? = some (runWord bs j) := by
  simp [runWords, h]

/-- A register after a run of at most 32 register writes: register `r + j` holds word `j` of the run, every other
register is as before (45_load_store_string.md R98). -/
theorem State.reg_setRun (s : State) (r q : Reg) (ws : List Word) (h : ws.length ≤ 32) :
    (s.setRun r ws).reg q = (ws[(q - r).toNat]?).getD (s.reg q) := by
  induction ws generalizing s r with
  | nil => simp [State.setRun]
  | cons w ws ih =>
    simp only [List.length_cons] at h
    rw [State.setRun, ih _ _ (by omega), State.reg_setReg]
    by_cases hq : q = r
    · subst hq
      have e : (q - (q + 1)).toNat = 31 := by
        have : q - (q + 1) = 31#5 := by bv_omega
        rw [this]; rfl
      rw [e, List.getElem?_eq_none (by omega)]
      simp
    · have e : (q - r).toNat = (q - (r + 1)).toNat + 1 := by bv_omega
      rw [e, List.getElem?_cons_succ, if_neg hq]

end Sys2Proof.Machine
end

