-- ==== Sys2Proof/Laws/Encoding.lean ====
section
/-!
SUPPORT. The fields of an encoded word are the operands it was made from, and the bytes of a word make the word again.
-/

namespace Sys2Proof

/-! ## Fields of a D-form word (30_encoding.md R35) -/

@[simp] theorem dWord_op (op : BitVec 6) (r rA : Reg) (d : BitVec 16) :
    (dWord op r rA d).extractLsb' 26 6 = op := by
  apply BitVec.eq_of_getLsbD_eq
  intro i hi
  simp only [dWord, BitVec.getLsbD_extractLsb', BitVec.getLsbD_append, hi, decide_true, Bool.true_and]
  repeat' split
  all_goals first | omega | (congr 1; omega)

@[simp] theorem dWord_r (op : BitVec 6) (r rA : Reg) (d : BitVec 16) :
    (dWord op r rA d).extractLsb' 21 5 = r := by
  apply BitVec.eq_of_getLsbD_eq
  intro i hi
  simp only [dWord, BitVec.getLsbD_extractLsb', BitVec.getLsbD_append, hi, decide_true, Bool.true_and]
  repeat' split
  all_goals first | omega | (congr 1; omega)

@[simp] theorem dWord_rA (op : BitVec 6) (r rA : Reg) (d : BitVec 16) :
    (dWord op r rA d).extractLsb' 16 5 = rA := by
  apply BitVec.eq_of_getLsbD_eq
  intro i hi
  simp only [dWord, BitVec.getLsbD_extractLsb', BitVec.getLsbD_append, hi, decide_true, Bool.true_and]
  repeat' split
  all_goals first | omega | (congr 1; omega)

@[simp] theorem dWord_d (op : BitVec 6) (r rA : Reg) (d : BitVec 16) :
    (dWord op r rA d).extractLsb' 0 16 = d := by
  apply BitVec.eq_of_getLsbD_eq
  intro i hi
  simp only [dWord, BitVec.getLsbD_extractLsb', BitVec.getLsbD_append, hi, decide_true, Bool.true_and]
  repeat' split
  all_goals first | omega | (congr 1; omega)

/-! ## Fields of an X-form word (30_encoding.md R36) -/

@[simp] theorem xWord_op (r rA rB : Reg) (xo : BitVec 10) : (xWord r rA rB xo).extractLsb' 26 6 = 31 := by
  apply BitVec.eq_of_getLsbD_eq
  intro i hi
  simp only [xWord, BitVec.getLsbD_extractLsb', BitVec.getLsbD_append, hi, decide_true, Bool.true_and]
  repeat' split
  all_goals first | omega | (congr 1; omega)

@[simp] theorem xWord_r (r rA rB : Reg) (xo : BitVec 10) : (xWord r rA rB xo).extractLsb' 21 5 = r := by
  apply BitVec.eq_of_getLsbD_eq
  intro i hi
  simp only [xWord, BitVec.getLsbD_extractLsb', BitVec.getLsbD_append, hi, decide_true, Bool.true_and]
  repeat' split
  all_goals first | omega | (congr 1; omega)

@[simp] theorem xWord_rA (r rA rB : Reg) (xo : BitVec 10) : (xWord r rA rB xo).extractLsb' 16 5 = rA := by
  apply BitVec.eq_of_getLsbD_eq
  intro i hi
  simp only [xWord, BitVec.getLsbD_extractLsb', BitVec.getLsbD_append, hi, decide_true, Bool.true_and]
  repeat' split
  all_goals first | omega | (congr 1; omega)

@[simp] theorem xWord_rB (r rA rB : Reg) (xo : BitVec 10) : (xWord r rA rB xo).extractLsb' 11 5 = rB := by
  apply BitVec.eq_of_getLsbD_eq
  intro i hi
  simp only [xWord, BitVec.getLsbD_extractLsb', BitVec.getLsbD_append, hi, decide_true, Bool.true_and]
  repeat' split
  all_goals first | omega | (congr 1; omega)

@[simp] theorem xWord_xo (r rA rB : Reg) (xo : BitVec 10) : (xWord r rA rB xo).extractLsb' 1 10 = xo := by
  apply BitVec.eq_of_getLsbD_eq
  intro i hi
  simp only [xWord, BitVec.getLsbD_extractLsb', BitVec.getLsbD_append, hi, decide_true, Bool.true_and]
  repeat' split
  all_goals first | omega | (congr 1; omega)

theorem xWord_rc (r rA rB : Reg) (xo : BitVec 10) : (xWord r rA rB xo).getLsbD 0 = false := by
  simp only [xWord, BitVec.getLsbD_append]; rfl

@[simp] theorem xWord_getElem_zero (r rA rB : Reg) (xo : BitVec 10) : (xWord r rA rB xo)[0] = false := by
  rw [← BitVec.getLsbD_eq_getElem]; exact xWord_rc r rA rB xo

/-! ## Bytes of a word (20_memory.md R20) -/

/-- The four bytes of a word, the most significant first, make the word. -/
@[simp] theorem beWord_beBytes (w : Word) : beWord (beBytes 4 w) = w := by
  apply BitVec.eq_of_getLsbD_eq
  intro i hi
  simp only [beWord, beBytes, List.foldl_cons, List.foldl_nil, BitVec.getLsbD_or, BitVec.getLsbD_shiftLeft,
    BitVec.getLsbD_setWidth, BitVec.getLsbD_extractLsb']
  interval_cases i <;> simp

@[simp] theorem beBytes_length (n : Nat) (w : Word) : (beBytes n w).length = n := by
  induction n with
  | zero => rfl
  | succ n ih => simp [beBytes, ih]

/-- One byte as an item: zero-extended (41_integer_load.md R53). -/
theorem beWord_byte (b : Byte) : beWord [b] = b.setWidth 32 := by
  simp [beWord]

/-- Two bytes as a half word, the first the more significant, zero-extended (41_integer_load.md R57). -/
theorem beWord_half (b₀ b₁ : Byte) : beWord [b₀, b₁] = (b₀ ++ b₁).setWidth 32 := by
  apply BitVec.eq_of_getLsbD_eq
  intro i hi
  simp only [beWord, List.foldl_cons, List.foldl_nil, BitVec.getLsbD_or, BitVec.getLsbD_shiftLeft,
    BitVec.getLsbD_setWidth, BitVec.getLsbD_append]
  interval_cases i <;> simp

/-- Four bytes as a word, the first the most significant (41_integer_load.md R65). -/
theorem beWord_word (b₀ b₁ b₂ b₃ : Byte) : beWord [b₀, b₁, b₂, b₃] = b₀ ++ b₁ ++ b₂ ++ b₃ := by
  apply BitVec.eq_of_getLsbD_eq
  intro i hi
  simp only [beWord, List.foldl_cons, List.foldl_nil, BitVec.getLsbD_or, BitVec.getLsbD_shiftLeft,
    BitVec.getLsbD_setWidth, BitVec.getLsbD_append]
  interval_cases i <;> simp

end Sys2Proof
end

