-- ==== Sys2Proof/Laws/Effects.lean ====
section
/-!
SUPPORT. What an instruction can do, said once for all 38: the five effects of `Effect`, the shapes of the answers, and
what a step can do. The provers cite these instead of unfolding the meanings.
-/

namespace Sys2Proof.Machine

/-! ## The tests and counts of the meanings are those of WellFormed -/

theorem inRun_eq (rD : Reg) (n : Nat) (r : Reg) : inRun rD n r = registerRunHas rD (registerCount n) r := rfl

theorem byteCount_eq (nb : BitVec 5) : byteCount nb = immediateCount nb := rfl

/-- Membership in a run of at most 32 registers: the distance from its first register, modulo 32, is below its
length. -/
theorem registerRunHas_eq {r q : Reg} {n : Nat} (hn : n ≤ 32) :
    registerRunHas r n q = decide ((q - r).toNat < n) := by
  rw [Bool.eq_iff_iff]
  simp only [registerRunHas, List.any_eq_true, List.mem_range, beq_iff_eq, decide_eq_true_eq]
  constructor
  · rintro ⟨j, hj, rfl⟩
    rw [add_sub_cancel_left]
    simp; omega
  · exact fun h => ⟨_, h, by rw [BitVec.ofNat_toNat, BitVec.setWidth_eq]; exact (add_sub_cancel _ _).symm⟩

/-! ## What the loops leave alone -/

/-- A run of stores changes memory and the dirty set only. -/
theorem State.storeBytes_frame (s : State) (a : Nat) (bs : List Byte) :
    s.storeBytes a bs = { s with mem := (s.storeBytes a bs).mem, dirtyCode := (s.storeBytes a bs).dirtyCode } := by
  induction bs generalizing s a with
  | nil => rfl
  | cons b bs ih => rw [State.storeBytes]; conv => lhs; rw [ih]
                    rfl

/-- A run of register writes changes the registers only. -/
theorem State.setRun_frame (s : State) (r : Reg) (ws : List Word) :
    s.setRun r ws = { s with gpr := (s.setRun r ws).gpr } := by
  induction ws generalizing s r with
  | nil => rfl
  | cons w ws ih => rw [State.setRun]; conv => lhs; rw [ih]
                    rfl

/-- A stopped store changes memory and the dirty set only. -/
theorem State.drawBytes_frame (s : State) (a c : Nat) (bs : List Byte) :
    s.drawBytes a c bs = { s with mem := (s.drawBytes a c bs).mem, dirtyCode := (s.drawBytes a c bs).dirtyCode } := by
  induction bs generalizing s a c with
  | nil => rfl
  | cons b bs ih =>
    rw [State.drawBytes]
    split
    · conv => lhs; rw [ih]
      rfl
    · conv => lhs; rw [ih]

/-- A byte that a stopped store leaves out of the dirty set is as before. -/
theorem State.drawBytes_byteAt_of_not_dirty {s : State} {a c x : Nat} {bs : List Byte}
    (h : x ∉ (s.drawBytes a c bs).dirtyCode) : (s.drawBytes a c bs).byteAt x = s.byteAt x := by
  induction bs generalizing s a c with
  | nil => rfl
  | cons b bs ih =>
    simp only [State.drawBytes] at h ⊢
    split at h <;> rename_i hd <;> simp only [hd, if_true, Bool.false_eq_true, if_false]
    · rw [ih h, State.byteAt_storeByte, if_neg]
      rintro rfl
      exact h (State.dirty_drawBytes_mono (by rw [State.dirty_storeByte]; exact .inl rfl))
    · exact ih h

/-! ## Shapes of the answers -/

theorem State.loadRun_answers (s : State) (rD : Reg) (ea : Word) (n g : Nat) : ∃ t, s.loadRun rD ea n g = .next t := by
  unfold State.loadRun; split <;> exact ⟨_, rfl⟩

theorem State.storeRun_answers (s : State) (rS : Reg) (ea : Word) (n g : Nat) :
    ∃ t, s.storeRun rS ea n g = .next t := by
  unfold State.storeRun; split <;> exact ⟨_, rfl⟩

/-- A valid load with update has passed its test. -/
theorem unlessLoadUpdateInvalid_next {rD rA : Reg} {k : Out} {t : State}
    (h : unlessLoadUpdateInvalid rD rA k = .next t) : rA ≠ 0 ∧ rA ≠ rD ∧ k = .next t := by
  unfold unlessLoadUpdateInvalid at h
  split at h
  · cases h
  · next hn => exact ⟨fun e => hn (.inl e), fun e => hn (.inr e), h⟩

/-- A valid store with update has passed its test. -/
theorem unlessStoreUpdateInvalid_next {rA : Reg} {k : Out} {t : State}
    (h : unlessStoreUpdateInvalid rA k = .next t) : rA ≠ 0 ∧ k = .next t := by
  unfold unlessStoreUpdateInvalid at h
  split at h
  · cases h
  · next hn => exact ⟨hn, h⟩

/-! ## Effects -/

/-- Everything an instruction that answers a next state `t` from `s` can have done. -/
inductive Effect (s t : State) : Prop where
  /-- It completed and wrote registers. -/
  | loaded (u : State) (hu : u = { s with gpr := u.gpr, draws := u.draws }) (h : t = u.advance)
  /-- It raised and changed nothing else. -/
  | raised (f : Fault) (h : t = s.raise f)
  /-- It completed and stored bytes, all admitted, inside the address space. -/
  | stored (ea : Word) (bs : List Byte) (u : State)
      (hu : u = { s.storeBytes ea.toNat bs with gpr := u.gpr, draws := u.draws })
      (hf : ea.toNat + bs.length ≤ addressSpace) (ha : ∀ j, j < bs.length → s.admits (ea.toNat + j) = true)
      (h : t = u.advance)
  /-- A load of a run raised part-way. -/
  | loadStopped (u : State) (hu : u = { s with gpr := u.gpr, draws := u.draws }) (f : Fault) (h : t = u.raise f)
  /-- A store of a run raised part-way. -/
  | storeStopped (ea : Word) (bs : List Byte) (c : Nat) (f : Fault) (hf : ea.toNat + bs.length ≤ addressSpace)
      (h : t = ({ s.drawBytes ea.toNat s.draws bs with draws := c } : State).raise f)

theorem pastTop_false {ea : Word} {n : Nat} (h : pastTop ea n = false) : ea.toNat + n ≤ addressSpace := by
  simpa [pastTop] using h

theorem State.withItem_effect {s t : State} {ea : Word} {n : Nat} {k : Word → State}
    (hk : ∀ v, k v = { s with gpr := (k v).gpr, draws := (k v).draws }) (h : s.withItem ea n k = .next t) :
    Effect s t := by
  rcases State.withItem_next h with ⟨v, -, rfl⟩ | ⟨f, -, rfl⟩
  · exact .loaded _ (hk v) rfl
  · exact .raised f rfl

theorem State.withStore_effect {s t : State} {ea v : Word} {n : Nat} {k : State → State}
    (hk : ∀ u : State, k u = { u with gpr := (k u).gpr, draws := (k u).draws }) (h : s.withStore ea n v k = .next t) :
    Effect s t := by
  rcases State.withStore_next h with ⟨h1, -, h3, rfl⟩ | ⟨f, rfl⟩
  · refine .stored ea (beBytes n v) _ (hk _) (by rw [beBytes_length]; exact pastTop_false h1) ?_ rfl
    rw [beBytes_length]
    simpa using State.admissionFault_none.1 h3
  · exact .raised f rfl

theorem State.loadRun_effect {s t : State} {rD : Reg} {ea : Word} {n g : Nat} (h : s.loadRun rD ea n g = .next t) :
    Effect s t := by
  rcases State.loadRun_next h with ⟨bs, -, rfl⟩ | ⟨f, -, rfl⟩
  · exact .loaded _ (by conv => lhs; rw [State.setRun_frame]
                        rw [State.setRun_frame]) rfl
  · exact .loadStopped _ (by simp only [State.drawRun]; rw [State.setRun_frame]) f rfl

theorem State.storeRun_effect {s t : State} {rS : Reg} {ea : Word} {n g : Nat} (hp : pastTop ea n = false)
    (h : s.storeRun rS ea n g = .next t) : Effect s t := by
  have hl : ea.toNat + (s.runBytes rS n).length ≤ addressSpace := by
    rw [State.runBytes_length]; exact pastTop_false hp
  rcases State.storeRun_next h with ⟨hw, rfl⟩ | ⟨f, -, rfl⟩
  · refine .stored ea (s.runBytes rS n) _ rfl hl ?_ rfl
    rw [State.runBytes_length]
    simpa using State.admissionFault_none.1 hw
  · exact .storeStopped ea (s.runBytes rS n) _ f hl rfl

/-- Each of the 38 instructions, where it answers a next state, has one of the five effects. -/
theorem exec_effect {s t : State} {i : Instr} (h : exec i s = .next t) : Effect s t := by
  cases i <;> first
    | exact State.withItem_effect (fun _ => rfl) h
    | exact State.withItem_effect (fun _ => rfl) (unlessLoadUpdateInvalid_next h).2.2
    | skip
  all_goals try simp only [exec, execStb, execStbx, execStbu, execStbux, execSth, execSthx, execSthu, execSthux,
    execStw, execStwx, execStwu, execStwux, execSthbrx, execStwbrx, State.storeItem, State.storeItemUpdate] at h
  all_goals first
    | exact State.withStore_effect (fun _ => rfl) h
    | exact State.withStore_effect (fun _ => rfl) (unlessStoreUpdateInvalid_next h).2
    | skip
  · simp only [execLmw] at h
    split at h
    · cases h
    · rcases State.withBlock_next h with ⟨-, -, rfl⟩ | ⟨-, -, h⟩
      · exact .raised _ rfl
      · exact State.loadRun_effect h
  · simp only [execStmw] at h
    rcases State.withBlock_next h with ⟨-, -, rfl⟩ | ⟨hp, -, h⟩
    · exact .raised _ rfl
    · exact State.storeRun_effect hp h
  · simp only [execLswi] at h
    split at h
    · cases h
    · exact State.loadRun_effect (withString_next h).2
  · simp only [execLswx] at h
    split at h
    · cases h
    · split at h
      · cases h
      · split at h
        · cases h; exact .loaded _ rfl rfl
        · exact State.loadRun_effect (withString_next h).2
  · exact State.storeRun_effect (withString_next h).1 (withString_next h).2
  · exact State.storeRun_effect (withString_next h).1 (withString_next h).2

/-- What a step that answers a next state can have done: nothing (a final state), a raise of the fetch, or the
instruction at the pc. -/
theorem step_next {s t : State} (h : step s = .next t) :
    (s.issue = .final ∧ t = s) ∨ (∃ f, s.issue = .raise f ∧ t = s.raise f) ∨
    (∃ i, s.issue = .run i ∧ exec i s = .next t) := by
  simp only [step] at h
  split at h
  · cases h
  · cases h
  · next hi => cases h; exact .inl ⟨hi, rfl⟩
  · next f hi => cases h; exact .inr (.inl ⟨f, hi, rfl⟩)
  · next i hi => exact .inr (.inr ⟨i, hi, h⟩)

/-- The memory of reset is in canonical form. -/
theorem reset_memory_wf : Memory.wf State.reset.mem = true := rfl

end Sys2Proof.Machine
end

