-- ==== Sys2Proof/Laws/PerInstr.lean ====
section
/-!
SUPPORT. The per-instruction family EncodedRow: the word of an instruction agrees with the match and mask of its row
of the opcode table (30_encoding.md R38, R39), one lemma per constructor.
-/

namespace Sys2Proof.Laws.EncodedRow

/-- The word of the instruction is its row's: masked, it is the row's match. -/
def Statement (i : Instr) : Prop := encode i &&& rowMask i = rowMatch i

theorem dRow (op : BitVec 6) (r rA : Reg) (d : BitVec 16) :
    dWord op r rA d &&& 0xfc000000 = op ++ 0#26 := by
  apply BitVec.eq_of_getLsbD_eq
  intro i hi
  simp only [dWord, BitVec.getLsbD_and, BitVec.getLsbD_append]
  interval_cases i <;> simp

theorem xRow (r rA rB : Reg) (xo : BitVec 10) :
    xWord r rA rB xo &&& 0xfc0007ff = 31#6 ++ 0#15 ++ xo ++ 0#1 := by
  apply BitVec.eq_of_getLsbD_eq
  intro i hi
  simp only [xWord, BitVec.getLsbD_and, BitVec.getLsbD_append]
  interval_cases i <;> simp

theorem lbz (a c : Reg) (b : BitVec 16) : Statement (.lbz a b c) := dRow _ _ _ _
theorem lbzx (a b c : Reg) : Statement (.lbzx a b c) := xRow _ _ _ _
theorem lbzu (a c : Reg) (b : BitVec 16) : Statement (.lbzu a b c) := dRow _ _ _ _
theorem lbzux (a b c : Reg) : Statement (.lbzux a b c) := xRow _ _ _ _
theorem lhz (a c : Reg) (b : BitVec 16) : Statement (.lhz a b c) := dRow _ _ _ _
theorem lhzx (a b c : Reg) : Statement (.lhzx a b c) := xRow _ _ _ _
theorem lhzu (a c : Reg) (b : BitVec 16) : Statement (.lhzu a b c) := dRow _ _ _ _
theorem lhzux (a b c : Reg) : Statement (.lhzux a b c) := xRow _ _ _ _
theorem lha (a c : Reg) (b : BitVec 16) : Statement (.lha a b c) := dRow _ _ _ _
theorem lhax (a b c : Reg) : Statement (.lhax a b c) := xRow _ _ _ _
theorem lhau (a c : Reg) (b : BitVec 16) : Statement (.lhau a b c) := dRow _ _ _ _
theorem lhaux (a b c : Reg) : Statement (.lhaux a b c) := xRow _ _ _ _
theorem lwz (a c : Reg) (b : BitVec 16) : Statement (.lwz a b c) := dRow _ _ _ _
theorem lwzx (a b c : Reg) : Statement (.lwzx a b c) := xRow _ _ _ _
theorem lwzu (a c : Reg) (b : BitVec 16) : Statement (.lwzu a b c) := dRow _ _ _ _
theorem lwzux (a b c : Reg) : Statement (.lwzux a b c) := xRow _ _ _ _
theorem stb (a c : Reg) (b : BitVec 16) : Statement (.stb a b c) := dRow _ _ _ _
theorem stbx (a b c : Reg) : Statement (.stbx a b c) := xRow _ _ _ _
theorem stbu (a c : Reg) (b : BitVec 16) : Statement (.stbu a b c) := dRow _ _ _ _
theorem stbux (a b c : Reg) : Statement (.stbux a b c) := xRow _ _ _ _
theorem sth (a c : Reg) (b : BitVec 16) : Statement (.sth a b c) := dRow _ _ _ _
theorem sthx (a b c : Reg) : Statement (.sthx a b c) := xRow _ _ _ _
theorem sthu (a c : Reg) (b : BitVec 16) : Statement (.sthu a b c) := dRow _ _ _ _
theorem sthux (a b c : Reg) : Statement (.sthux a b c) := xRow _ _ _ _
theorem stw (a c : Reg) (b : BitVec 16) : Statement (.stw a b c) := dRow _ _ _ _
theorem stwx (a b c : Reg) : Statement (.stwx a b c) := xRow _ _ _ _
theorem stwu (a c : Reg) (b : BitVec 16) : Statement (.stwu a b c) := dRow _ _ _ _
theorem stwux (a b c : Reg) : Statement (.stwux a b c) := xRow _ _ _ _
theorem lhbrx (a b c : Reg) : Statement (.lhbrx a b c) := xRow _ _ _ _
theorem lwbrx (a b c : Reg) : Statement (.lwbrx a b c) := xRow _ _ _ _
theorem sthbrx (a b c : Reg) : Statement (.sthbrx a b c) := xRow _ _ _ _
theorem stwbrx (a b c : Reg) : Statement (.stwbrx a b c) := xRow _ _ _ _
theorem lmw (a c : Reg) (b : BitVec 16) : Statement (.lmw a b c) := dRow _ _ _ _
theorem stmw (a c : Reg) (b : BitVec 16) : Statement (.stmw a b c) := dRow _ _ _ _
theorem lswi (a b c : Reg) : Statement (.lswi a b c) := xRow _ _ _ _
theorem lswx (a b c : Reg) : Statement (.lswx a b c) := xRow _ _ _ _
theorem stswi (a b c : Reg) : Statement (.stswi a b c) := xRow _ _ _ _
theorem stswx (a b c : Reg) : Statement (.stswx a b c) := xRow _ _ _ _

end Sys2Proof.Laws.EncodedRow
end

