-- ==== Sys2Proof/Tests/Slice0.lean ====
section
/-!
SUPPORT. The model's own tests and the witnesses of the obligations' hypotheses. The words and the expected values are
those of spec/95_test_vectors.md (the vector's id stands at each test) and of the examples in the instructions' rules.
-/

namespace Sys2Proof.Tests

open Sys2Proof.Machine Sys2Proof.Claims

/-! ## Helpers -/

/-- A launch at 0x100 with these registers and this memory, every other register zero. -/
def start (regs : List (Reg × Word)) (mem : Memory) : State :=
  regs.foldl (fun s p => s.setReg p.1 p.2) { State.reset with mem := mem }

/-- The same with only the addresses below `n` admitted. -/
def State.below (s : State) (n : Nat) : State := { s with platform := { s.platform with memAdmit := [⟨0, n⟩] } }

/-- The same under policy perform. -/
def State.performs (s : State) : State := { s with platform := { s.platform with misalignedPolicy := .perform } }

/-- The same with a byte count. -/
def State.counts (s : State) (n : BitVec 7) : State := { s with xerBc := n }

/-- Bytes from an address up. -/
def bytesAt (a : Nat) (bs : List Nat) : Memory := Memory.place [] a (bs.map (BitVec.ofNat 8))

/-- The instruction completes, in a state with this property. -/
def gives (i : Instr) (s : State) (p : State → Bool) : Bool :=
  match exec i s with
  | .next t => decide (t.pc = s.pc + 4) && t.fault.isNone && p t
  | _ => false

/-- The instruction raises this exception and changes nothing else. -/
def raises (i : Instr) (s : State) (f : Fault) : Bool :=
  match exec i s with
  | .next t => decide (t = raisedOnly s f)
  | _ => false

/-- The instruction raises this exception, and what else it leaves has this property. -/
def stopsWith (i : Instr) (s : State) (f : Fault) (p : State → Bool) : Bool :=
  match exec i s with
  | .next t => decide (t.fault = some ⟨f, s.pc⟩ ∧ t.pc = s.pc) && p t
  | _ => false

/-- The instruction is refused for this reason. -/
def refuses (i : Instr) (s : State) (r : Refusal) : Bool :=
  match exec i s with
  | .refused r' => decide (r' = r)
  | _ => false

def answers (o : Host.Outcome State Fault Refusal) : Bool :=
  match o with
  | .next _ => true
  | _ => false

theorem exists_of_answers {o : Host.Outcome State Fault Refusal} (h : answers o = true) : ∃ t, o = .next t := by
  cases o with
  | next t => exact ⟨t, rfl⟩
  | fault f => cases h
  | refused r => cases h

/-- The load table's memory, 80 01 FF 7F at 0x1000. -/
def mem1 : Memory := bytesAt 0x1000 [0x80, 0x01, 0xFF, 0x7F]

/-- The multiple table's memory. -/
def memM : Memory :=
  bytesAt 0x1000 [0x10, 0x11, 0x12, 0x13, 0x20, 0x21, 0x22, 0x23, 0x30, 0x31, 0x32, 0x33]

/-- The string table's memory. -/
def memT : Memory := bytesAt 0x1001 [0x11, 0x22, 0x33, 0x44, 0x55, 0x66, 0x77, 0x88, 0x99]

/-! ## Well-formedness: an ill-formed term for each check of 30_encoding.md R42 -/

/-- L12. -/
theorem test_wellFormed_row1_base_zero : Instr.invalidRow (.lbzu 3 1 0) = some .loadUpdate := by decide

/-- L38. -/
theorem test_wellFormed_row1_base_destination : Instr.invalidRow (.lwzu 3 4 3) = some .loadUpdate := by decide

/-- L40. -/
theorem test_wellFormed_row1_indexed : Instr.invalidRow (.lwzux 3 0 5) = some .loadUpdate := by decide

/-- S6. -/
theorem test_wellFormed_row2 : Instr.invalidRow (.stbu 3 1 0) = some .storeUpdate := by decide

/-- S22. -/
theorem test_wellFormed_row2_indexed : Instr.invalidRow (.stwux 3 0 4) = some .storeUpdate := by decide

/-- M5. -/
theorem test_wellFormed_row4 : Instr.invalidRow (.lmw 29 0 31) = some .lmwRange := by decide

/-- M6. -/
theorem test_wellFormed_row4_zero : Instr.invalidRow (.lmw 0 0 0) = some .lmwRange := by decide

/-- T7. -/
theorem test_wellFormed_row6 : Instr.invalidRow (.lswi 3 4 8) = some .lswiRange := by decide

/-- T8. -/
theorem test_wellFormed_row6_wraps_to_r0 : Instr.invalidRow (.lswi 31 0 8) = some .lswiRange := by decide

/-- T12. -/
theorem test_wellFormed_row7_destination_base : Instr.invalidRow (.lswx 5 5 10) = some .lswxRange := by decide

/-- R103. -/
theorem test_wellFormed_row7_destination_index : Instr.invalidRow (.lswx 5 4 5) = some .lswxRange := by decide

/-- S5. -/
theorem test_wellFormed_valid_store_update_of_base : Instr.invalidRow (.stbu 4 1 4) = none := by decide

/-- M3. -/
theorem test_wellFormed_valid_lmw_absolute : Instr.invalidRow (.lmw 30 0x1004 0) = none := by decide

/-- T24. -/
theorem test_wellFormed_valid_lswi_wrapping : Instr.invalidRow (.lswi 30 10 12) = none := by decide

/-- Row 3, which the decoder checks: stwx with bit 0 set (S18). -/
theorem test_wellFormed_row3 : decodeWord 0x7C64292F = .error (.invalidForm .storeRc) := by decide

/-- Row 5: lwzx with bit 0 set (L41). -/
theorem test_wellFormed_row5 : decodeWord 0x7C64282F = .error (.invalidForm .loadRc) := by decide

/-! ## Decoding: a word of each instruction. In binary, with the fields' widths of R35 and R36, one of each family;
then the words of the vectors -/

/-- lbz r3,5(r4): opcode 34, rD 3, rA 4, d 5. -/
theorem test_bits_lbz : decodeWord 0b10001000011001000000000000000101 = .ok (.lbz 3 5 4) := by decide

/-- lwzux r3,r4,r5: opcode 31, rD 3, rA 4, rB 5, XO 55, bit 0 zero. -/
theorem test_bits_lwzux : decodeWord 0b01111100011001000010100001101110 = .ok (.lwzux 3 4 5) := by decide

/-- stw r3,-4(r1): opcode 36, rS 3, rA 1, d -4. -/
theorem test_bits_stw : decodeWord 0b10010000011000011111111111111100 = .ok (.stw 3 0xFFFC 1) := by decide

/-- lwbrx r3,r4,r5: opcode 31, rD 3, rA 4, rB 5, XO 534. -/
theorem test_bits_lwbrx : decodeWord 0b01111100011001000010110000101100 = .ok (.lwbrx 3 4 5) := by decide

/-- lmw r29,0(r4): opcode 46, rD 29, rA 4, d 0. -/
theorem test_bits_lmw : decodeWord 0b10111011101001000000000000000000 = .ok (.lmw 29 0 4) := by decide

/-- lswi r5,r4,8: opcode 31, rD 5, rA 4, NB 8, XO 597. -/
theorem test_bits_lswi : decodeWord 0b01111100101001000100010010101010 = .ok (.lswi 5 4 8) := by decide

/-- L3. -/
theorem test_decode_lbz : decodeWord 0x8864FFFF = .ok (.lbz 3 0xFFFF 4) := by decide

/-- L7. -/
theorem test_decode_lbzx : decodeWord 0x7C6000AE = .ok (.lbzx 3 0 0) := by decide

/-- L9. -/
theorem test_decode_lbzu : decodeWord 0x8C640003 = .ok (.lbzu 3 3 4) := by decide

/-- L14. -/
theorem test_decode_lbzux : decodeWord 0x7C6418EE = .ok (.lbzux 3 4 3) := by decide

/-- L16. -/
theorem test_decode_lhz : decodeWord 0xA0640002 = .ok (.lhz 3 2 4) := by decide

/-- L19. -/
theorem test_decode_lhzx : decodeWord 0x7C642A2E = .ok (.lhzx 3 4 5) := by decide

/-- L20. -/
theorem test_decode_lhzu : decodeWord 0xA464FFFE = .ok (.lhzu 3 0xFFFE 4) := by decide

/-- L21. -/
theorem test_decode_lhzux : decodeWord 0x7C642A6E = .ok (.lhzux 3 4 5) := by decide

/-- L22. -/
theorem test_decode_lha : decodeWord 0xA8640000 = .ok (.lha 3 0 4) := by decide

/-- L27. -/
theorem test_decode_lhax : decodeWord 0x7C602AAE = .ok (.lhax 3 0 5) := by decide

/-- L28. -/
theorem test_decode_lhau : decodeWord 0xAC640002 = .ok (.lhau 3 2 4) := by decide

/-- L29. -/
theorem test_decode_lhaux : decodeWord 0x7C642AEE = .ok (.lhaux 3 4 5) := by decide

/-- L32. -/
theorem test_decode_lwz : decodeWord 0x80648000 = .ok (.lwz 3 0x8000 4) := by decide

/-- L36. -/
theorem test_decode_lwzx : decodeWord 0x7C64282E = .ok (.lwzx 3 4 5) := by decide

/-- L37. -/
theorem test_decode_lwzu : decodeWord 0x8464FFFC = .ok (.lwzu 3 0xFFFC 4) := by decide

/-- L39. -/
theorem test_decode_lwzux : decodeWord 0x7C64286E = .ok (.lwzux 3 4 5) := by decide

/-- S1. -/
theorem test_decode_stb : decodeWord 0x98640000 = .ok (.stb 3 0 4) := by decide

/-- S3. -/
theorem test_decode_stbx : decodeWord 0x7C6429AE = .ok (.stbx 3 4 5) := by decide

/-- S5. -/
theorem test_decode_stbu : decodeWord 0x9C840001 = .ok (.stbu 4 1 4) := by decide

/-- S7. -/
theorem test_decode_stbux : decodeWord 0x7C6429EE = .ok (.stbux 3 4 5) := by decide

/-- S8. -/
theorem test_decode_sth : decodeWord 0xB0640000 = .ok (.sth 3 0 4) := by decide

/-- S11. -/
theorem test_decode_sthx : decodeWord 0x7C602B2E = .ok (.sthx 3 0 5) := by decide

/-- S12. -/
theorem test_decode_sthu : decodeWord 0xB464FFFE = .ok (.sthu 3 0xFFFE 4) := by decide

/-- S13. -/
theorem test_decode_sthux : decodeWord 0x7C842B6E = .ok (.sthux 4 4 5) := by decide

/-- S14. -/
theorem test_decode_stw : decodeWord 0x90640000 = .ok (.stw 3 0 4) := by decide

/-- S17. -/
theorem test_decode_stwx : decodeWord 0x7C64292E = .ok (.stwx 3 4 5) := by decide

/-- S19. -/
theorem test_decode_stwu : decodeWord 0x9421FFF0 = .ok (.stwu 1 0xFFF0 1) := by decide

/-- S21. -/
theorem test_decode_stwux : decodeWord 0x7C64216E = .ok (.stwux 3 4 4) := by decide

/-- B2. -/
theorem test_decode_lhbrx : decodeWord 0x7C642E2C = .ok (.lhbrx 3 4 5) := by decide

/-- B4. -/
theorem test_decode_lwbrx : decodeWord 0x7C642C2C = .ok (.lwbrx 3 4 5) := by decide

/-- B7. -/
theorem test_decode_sthbrx : decodeWord 0x7C642F2C = .ok (.sthbrx 3 4 5) := by decide

/-- B9. -/
theorem test_decode_stwbrx : decodeWord 0x7C601D2C = .ok (.stwbrx 3 0 3) := by decide

/-- M1. -/
theorem test_decode_lmw : decodeWord 0xBBA40000 = .ok (.lmw 29 0 4) := by decide

/-- M11. -/
theorem test_decode_stmw : decodeWord 0xBFDFFFF8 = .ok (.stmw 30 0xFFF8 31) := by decide

/-- T5. -/
theorem test_decode_lswi : decodeWord 0x7FE44CAA = .ok (.lswi 31 4 9) := by decide

/-- T10. -/
theorem test_decode_lswx : decodeWord 0x7CA4542A = .ok (.lswx 5 4 10) := by decide

/-- T18. -/
theorem test_decode_stswi : decodeWord 0x7FE435AA = .ok (.stswi 31 4 6) := by decide

/-- T20. -/
theorem test_decode_stswx : decodeWord 0x7CA4552A = .ok (.stswx 5 4 10) := by decide

/-- A word of another instruction, addi r3,0,1, is NotInScope (R43). -/
theorem test_decode_other : decodeWord 0x38600001 = .error (.notInScope 0x38600001) := by decide

/-- Decoding is total: no bytes at all. -/
theorem test_decode_nothing : decode [] = .error (.notInScope 0) := by decide

/-! ## One vector per instruction -/

/-- L3. -/
theorem test_lbz : gives (.lbz 3 0xFFFF 4) (start [(4, 0x1001)] mem1) (fun t => t.reg 3 == 0x80) = true := by decide

/-- L7. -/
theorem test_lbzx : gives (.lbzx 3 0 0) (start [(0, 0x1001)] mem1) (fun t => t.reg 3 == 1) = true := by decide

/-- L9. -/
theorem test_lbzu : gives (.lbzu 3 3 4) (start [(4, 0x1000)] mem1) (fun t => t.reg 3 == 0x7F && t.reg 4 == 0x1003) = true := by decide

/-- L14. -/
theorem test_lbzux : gives (.lbzux 3 4 3) (start [(3, 0xFFFFFFFF), (4, 0x1003)] mem1) (fun t => t.reg 3 == 0xFF && t.reg 4 == 0x1002) = true := by decide

/-- L16. -/
theorem test_lhz : gives (.lhz 3 2 4) (start [(4, 0x1000)] mem1) (fun t => t.reg 3 == 0xFF7F) = true := by decide

/-- L19. -/
theorem test_lhzx : gives (.lhzx 3 4 5) (start [(4, 0xFFFFFFFE), (5, 0x1004)] mem1) (fun t => t.reg 3 == 0xFF7F) = true := by decide

/-- L20. -/
theorem test_lhzu : gives (.lhzu 3 0xFFFE 4) (start [(4, 0x1004)] mem1) (fun t => t.reg 3 == 0xFF7F && t.reg 4 == 0x1002) = true := by decide

/-- L21. -/
theorem test_lhzux : gives (.lhzux 3 4 5) (start [(4, 0x1000)] mem1) (fun t => t.reg 3 == 0x8001 && t.reg 4 == 0x1000) = true := by decide

/-- L22. -/
theorem test_lha : gives (.lha 3 0 4) (start [(4, 0x1000)] mem1) (fun t => t.reg 3 == 0xFFFF8001) = true := by decide

/-- L27. -/
theorem test_lhax : gives (.lhax 3 0 5) (start [(5, 0x1002)] mem1) (fun t => t.reg 3 == 0xFFFFFF7F) = true := by decide

/-- L28. -/
theorem test_lhau : gives (.lhau 3 2 4) (start [(4, 0x1000)] mem1) (fun t => t.reg 3 == 0xFFFFFF7F && t.reg 4 == 0x1002) = true := by decide

/-- L29. -/
theorem test_lhaux : gives (.lhaux 3 4 5) (start [(4, 0x1004), (5, 0xFFFFFFFC)] mem1) (fun t => t.reg 3 == 0xFFFF8001 && t.reg 4 == 0x1000) = true := by decide

/-- L32. -/
theorem test_lwz : gives (.lwz 3 0x8000 4) (start [(4, 0x9000)] mem1) (fun t => t.reg 3 == 0x8001FF7F) = true := by decide

/-- L36. -/
theorem test_lwzx : gives (.lwzx 3 4 5) (start [(4, 0x80000800), (5, 0x80000800)] mem1) (fun t => t.reg 3 == 0x8001FF7F) = true := by decide

/-- L37. -/
theorem test_lwzu : gives (.lwzu 3 0xFFFC 4) (start [(4, 0x1004)] mem1) (fun t => t.reg 3 == 0x8001FF7F && t.reg 4 == 0x1000) = true := by decide

/-- L39. -/
theorem test_lwzux : gives (.lwzux 3 4 5) (start [(4, 0x800), (5, 0x800)] mem1) (fun t => t.reg 3 == 0x8001FF7F && t.reg 4 == 0x1000) = true := by decide

/-- S1. -/
theorem test_stb : gives (.stb 3 0 4) (start [(3, 0x12345678), (4, 0x1000)] []) (fun t => t.mem == bytesAt 0x1000 [0x78]) = true := by decide

/-- S3. -/
theorem test_stbx : gives (.stbx 3 4 5) (start [(3, 0xAB), (4, 0xFFFFFFFF), (5, 0x1001)] []) (fun t => t.mem == bytesAt 0x1000 [0xAB]) = true := by decide

/-- S5. -/
theorem test_stbu : gives (.stbu 4 1 4) (start [(4, 0x10FE)] []) (fun t => t.mem == bytesAt 0x10FF [0xFE] && t.reg 4 == 0x10FF) = true := by decide

/-- S7. -/
theorem test_stbux : gives (.stbux 3 4 5) (start [(3, 0x99), (4, 0x1000), (5, 0xFFFFFFFF)] []) (fun t => t.mem == bytesAt 0x0FFF [0x99] && t.reg 4 == 0xFFF) = true := by decide

/-- S8. -/
theorem test_sth : gives (.sth 3 0 4) (start [(3, 0x12345678), (4, 0x1000)] []) (fun t => t.mem == bytesAt 0x1000 [0x56, 0x78]) = true := by decide

/-- S11. -/
theorem test_sthx : gives (.sthx 3 0 5) (start [(3, 0xFFFF8001), (5, 0x1002)] []) (fun t => t.mem == bytesAt 0x1002 [0x80, 0x01]) = true := by decide

/-- S12. -/
theorem test_sthu : gives (.sthu 3 0xFFFE 4) (start [(3, 0xBEEF), (4, 0x1004)] []) (fun t => t.mem == bytesAt 0x1002 [0xBE, 0xEF] && t.reg 4 == 0x1002) = true := by decide

/-- S13. -/
theorem test_sthux : gives (.sthux 4 4 5) (start [(4, 0x1000), (5, 6)] []) (fun t => t.mem == bytesAt 0x1006 [0x10, 0x00] && t.reg 4 == 0x1006) = true := by decide

/-- S14. -/
theorem test_stw : gives (.stw 3 0 4) (start [(3, 0x12345678), (4, 0x1000)] []) (fun t => t.mem == bytesAt 0x1000 [0x12, 0x34, 0x56, 0x78]) = true := by decide

/-- S17. -/
theorem test_stwx : gives (.stwx 3 4 5) (start [(3, 0x0A0B0C0D), (4, 0x1000), (5, 4)] []) (fun t => t.mem == bytesAt 0x1004 [0x0A, 0x0B, 0x0C, 0x0D]) = true := by decide

/-- S19. -/
theorem test_stwu : gives (.stwu 1 0xFFF0 1) (start [(1, 0x2000)] []) (fun t => t.mem == bytesAt 0x1FF0 [0x00, 0x00, 0x20, 0x00] && t.reg 1 == 0x1FF0) = true := by decide

/-- S21. -/
theorem test_stwux : gives (.stwux 3 4 4) (start [(3, 0xCAFEF00D), (4, 0x800)] []) (fun t => t.mem == bytesAt 0x1000 [0xCA, 0xFE, 0xF0, 0x0D] && t.reg 4 == 0x1000) = true := by decide

/-- B2. -/
theorem test_lhbrx : gives (.lhbrx 3 4 5) (start [(4, 0x1000)] (bytesAt 0x1000 [0x00, 0x80])) (fun t => t.reg 3 == 0x8000) = true := by decide

/-- B4. -/
theorem test_lwbrx : gives (.lwbrx 3 4 5) (start [(4, 0x1000)] (bytesAt 0x1000 [0x12, 0x34, 0x56, 0x78])) (fun t => t.reg 3 == 0x78563412) = true := by decide

/-- B7. -/
theorem test_sthbrx : gives (.sthbrx 3 4 5) (start [(3, 0x12345678), (4, 0x1000)] []) (fun t => t.mem == bytesAt 0x1000 [0x78, 0x56]) = true := by decide

/-- B9. -/
theorem test_stwbrx : gives (.stwbrx 3 0 3) (start [(3, 0x1000)] []) (fun t => t.mem == bytesAt 0x1000 [0x00, 0x10, 0x00, 0x00]) = true := by decide

/-- M1. -/
theorem test_lmw : gives (.lmw 29 0 4) (start [(4, 0x1000)] memM) (fun t => t.reg 29 == 0x10111213 && t.reg 30 == 0x20212223 && t.reg 31 == 0x30313233) = true := by decide

/-- M11. -/
theorem test_stmw : gives (.stmw 30 0xFFF8 31) (start [(30, 0x01020304), (31, 0x1008)] []) (fun t => t.mem == bytesAt 0x1000 [0x01, 0x02, 0x03, 0x04, 0x00, 0x00, 0x10, 0x08]) = true := by decide

/-- T5. -/
theorem test_lswi : gives (.lswi 31 4 9) (start [(4, 0x1001)] memT) (fun t => t.reg 31 == 0x11223344 && t.reg 0 == 0x55667788 && t.reg 1 == 0x99000000) = true := by decide

/-- T10. -/
theorem test_lswx : gives (.lswx 5 4 10) (State.counts (start [(4, 0x1000), (10, 1)] memT) 6) (fun t => t.reg 5 == 0x11223344 && t.reg 6 == 0x55660000) = true := by decide

/-- T18. -/
theorem test_stswi : gives (.stswi 31 4 6) (start [(0, 0x11223344), (4, 0x1001), (31, 0xAABBCCDD)] []) (fun t => t.mem == bytesAt 0x1001 [0xAA, 0xBB, 0xCC, 0xDD, 0x11, 0x22]) = true := by decide

/-- T20. -/
theorem test_stswx : gives (.stswx 5 4 10) (State.counts (start [(4, 0x1000), (5, 0xAABBCCDD), (10, 3)] []) 3) (fun t => t.mem == bytesAt 0x1003 [0xAA, 0xBB, 0xCC]) = true := by decide

/-! ## Raises, refusals and corners -/

/-- L44. -/
theorem test_lbz_unwritten : raises (.lbz 3 0 4) (start [(4, 0x3000)] []) (.unwrittenMemory 0x3000) = true := by decide

/-- L8. -/
theorem test_lbzx_same_register : gives (.lbzx 4 4 4) (start [(4, 0x800)] mem1) (fun t => t.reg 4 == 0x80) = true := by decide

/-- L12. -/
theorem test_lbzu_invalid : refuses (.lbzu 3 1 0) (start [(0, 0x1000)] []) (.invalidForm .loadUpdate) = true := by decide

/-- 60_exceptions.md R116 rows 10 and 11: the first byte holds no value, the second is not admitted. -/
theorem test_lhz_admission_first : raises (.lhz 3 0 4) (State.below (start [(4, 0x1000)] []) 0x1001) (.dsi 0x1000) = true := by decide

/-- As L17, which is lhz. -/
theorem test_lhzx_misaligned : raises (.lhzx 3 4 5) (start [(4, 0x1000), (5, 1)] mem1) (.alignment 0x1001) = true := by decide

/-- As L18, which is lhz. -/
theorem test_lhzu_performed : gives (.lhzu 3 1 4) (State.performs (start [(4, 0x1000)] mem1)) (fun t => t.reg 3 == 0x1FF && t.reg 4 == 0x1001) = true := by decide

/-- L24. -/
theorem test_lha_positive : gives (.lha 3 0 4) (start [(4, 0x2000)] (bytesAt 0x2000 [0x7F, 0xFF])) (fun t => t.reg 3 == 0x7FFF) = true := by decide

/-- L35. -/
theorem test_lwz_wrap : refuses (.lwz 3 0xFFFD 0) (State.performs (start [] [])) (.addressWrap 0xFFFFFFFD 4) = true := by decide

/-- As L42, which is lwz: rA keeps its value. -/
theorem test_lwzu_dsi : raises (.lwzu 3 0 4) (State.below (start [(4, 0x1000)] mem1) 0x1003) (.dsi 0x1000) = true := by decide

/-- S9. -/
theorem test_sth_misaligned : raises (.sth 3 1 4) (start [(3, 0x12345678), (4, 0x1000)] []) (.alignment 0x1001) = true := by decide

/-- S15. -/
theorem test_stw_wrap : refuses (.stw 3 0 4) (State.performs (start [(4, 0xFFFFFFFE)] [])) (.addressWrap 0xFFFFFFFE 4) = true := by decide

/-- S20. -/
theorem test_stwu_dsi : raises (.stwu 3 8 4) (State.below (start [(3, 0x12345678), (4, 0x1000)] []) 0x1008) (.dsi 0x1008) = true := by decide

/-- S22. -/
theorem test_stwux_invalid : refuses (.stwux 3 0 4) (start [(3, 1), (4, 0x1000)] []) (.invalidForm .storeUpdate) = true := by decide

/-- B3. -/
theorem test_lhbrx_misaligned : raises (.lhbrx 3 0 5) (start [(5, 0x1001)] mem1) (.alignment 0x1001) = true := by decide

/-- M9. -/
theorem test_lmw_stopped : stopsWith (.lmw 30 4 4) (State.below (start [(4, 0x1000)] memM) 0x1008) (.dsi 0x1008) (fun t => t.reg 31 == 0) = true := by decide

/-- M12, under policy perform. -/
theorem test_stmw_misaligned : raises (.stmw 31 1 4) (State.performs (start [(4, 0x1000)] [])) (.alignment 0x1001) = true := by decide

/-- T9. -/
theorem test_lswi_32_bytes : gives (.lswi 5 4 0) (start [(4, 0x2000)] (bytesAt 0x2000 (List.range 32))) (fun t => t.reg 5 == 0x00010203 && t.reg 12 == 0x1C1D1E1F) = true := by decide

/-- T14. -/
theorem test_lswx_overlap : refuses (.lswx 5 4 6) (State.counts (start [(4, 0x1000), (6, 1)] memT) 5) (.invalidForm .lswxRange) = true := by decide

/-- T23. -/
theorem test_stswi_wrap : refuses (.stswi 5 4 2) (start [(4, 0xFFFFFFFF), (5, 0xAABBCCDD)] []) (.addressWrap 0xFFFFFFFF 2) = true := by decide

/-- T21. -/
theorem test_stswx_no_byte : gives (.stswx 5 4 10) (start [(4, 0x1000), (5, 0xAABBCCDD), (10, 3)] []) (fun t => t.mem == [] && t.dirtyCode == []) = true := by decide

/-! ## Steps from reset -/

/-- The invariant holds at reset. -/
theorem reset_inv : State.reset.Inv := by decide

/-- At reset nothing is placed at the pc: the first step raises UnwrittenMemory there (log 17). -/
theorem test_step_reset : (match Machine.step State.reset with
    | .next t => t.fault == some ⟨.unwrittenMemory 0x100, 0x100⟩
    | _ => false) = true := by decide

/-- lbz r3,0x103(0) placed at the pc of reset loads its own last byte. -/
theorem test_step_withFetchWord : (match Machine.step (State.reset.withFetchWord 32 0x88600103) with
    | .next t => t.reg 3 == 0x03 && t.pc == 0x104 && t.fault == none
    | _ => false) = true := by decide

/-- addi placed at the pc of reset is refused by name (R43). -/
theorem test_step_not_in_scope : (match Machine.step (State.reset.withFetchWord 32 0x38600001) with
    | .refused r => r == .notInScope 0x38600001
    | _ => false) = true := by decide

/-! ## Witnesses: states and operands that meet the hypotheses of the obligations, each clause at a boundary -/

/-- A state at the top of the address space: r1 = 0xFFFFFFFC, r2 = 0, r3 = 1, r4 = 2, r5 = 3, four bytes at
0xFFFFFFFC. -/
def top : State :=
  start [(1, 0xFFFFFFFC), (2, 0), (3, 1), (4, 2), (5, 3)] (bytesAt 0xFFFFFFFC [0xDE, 0xAD, 0xBE, 0xEF])

/-- The same under policy perform. -/
def topPerforms : State := State.performs top

/-- A state whose pc is the last word of the address space, with a word there. -/
def atTop (bs : List Nat) : State := { State.reset with pc := 0xFFFFFFFC, mem := bytesAt 0xFFFFFFFC bs }

/-- stw r3,0x200(0), then lwz r4,0x200(0), at the pc of reset. -/
def twoInstructions : State :=
  { start [(3, 0x12345678)] [] with mem := bytesAt 0x100 [0x90, 0x60, 0x02, 0x00, 0x80, 0x80, 0x02, 0x00] }

theorem witness_DecodedWordIsItsEncoding : decodeWord 0xBFFFFFFF = .ok (.stmw 31 0xFFFF 31) := by decide

theorem witness_WordIsTheRowIffMaskedMatch :
    (0x7C64292E : Word) &&& rowMask (.stwx 0 0 0) = rowMatch (.stwx 0 0 0) := by decide

theorem witness_SetRcBitIsTheInvalidFormOfItsRow :
    (rowMask (.stwx 0 0 0) = 0xfc0007ff ∧ (0x7C64292F : Word) &&& 0xfc0007fe = rowMatch (.stwx 0 0 0) ∧
      (0x7C64292F : Word).getLsbD 0 = true) ∧
    (rowMask (.lswi 0 0 0) = 0xfc0007ff ∧ (0x7FFFFCAB : Word) &&& 0xfc0007fe = rowMatch (.lswi 0 0 0) ∧
      (0x7FFFFCAB : Word).getLsbD 0 = true) ∧
    (rowMask (.stmw 0 0 0) = 0xfc000000 ∧ (0xBFFFFFFF : Word) &&& 0xfc000000 = rowMatch (.stmw 0 0 0)) := by decide

theorem witness_OtherWordsAreNotInScope :
    ∀ j : Instr, (0x7C00012D : Word) &&& rowMaskButRc j ≠ rowMatch j := by
  intro j; cases j <;> simp [rowMaskButRc, rowMask, rowMatch]

theorem witness_StepRunsTheDecodedInstruction :
    fetches (atTop [0x88, 0x60, 0x01, 0x03]) = true ∧ codeClean (atTop [0x88, 0x60, 0x01, 0x03]) = true ∧
    holdsBytes (atTop [0x88, 0x60, 0x01, 0x03]) (atTop [0x88, 0x60, 0x01, 0x03]).pc.toNat [0x88, 0x60, 0x01, 0x03] = true ∧
    decode [0x88, 0x60, 0x01, 0x03] = .ok (.lbz 3 0x103 0) := by decide

theorem witness_FetchOfAStoredByteIsRefused :
    fetches { atTop [1, 2, 3, 4] with dirtyCode := [0xFFFFFFFF] } = true ∧
    codeClean { atTop [1, 2, 3, 4] with dirtyCode := [0xFFFFFFFF] } = false := by decide

theorem witness_FetchRaises :
    (fetches (State.below (atTop []) 0xFFFFFFFC) = true ∧ codeClean (State.below (atTop []) 0xFFFFFFFC) = true ∧
      admitted (State.below (atTop []) 0xFFFFFFFC) 0xFFFFFFFC 4 = false) ∧
    (fetches (State.below (atTop []) 0xFFFFFFFF) = true ∧ codeClean (State.below (atTop []) 0xFFFFFFFF) = true ∧
      admitted (State.below (atTop []) 0xFFFFFFFF) 0xFFFFFFFC 4 = false) ∧
    (fetches (atTop [1, 2, 3]) = true ∧ codeClean (atTop [1, 2, 3]) = true ∧
      firstValueless (atTop [1, 2, 3]) 0xFFFFFFFC 4 3 = true) := by decide

theorem witness_UndecodableWordIsRefused :
    (fetches (atTop [0, 0, 0, 0]) = true ∧ codeClean (atTop [0, 0, 0, 0]) = true ∧
      holdsBytes (atTop [0, 0, 0, 0]) 0xFFFFFFFC [0, 0, 0, 0] = true ∧ decode [0, 0, 0, 0] = .error (.notInScope 0)) ∧
    (fetches (atTop [0x7C, 0x64, 0x29, 0x2F]) = true ∧ codeClean (atTop [0x7C, 0x64, 0x29, 0x2F]) = true ∧
      holdsBytes (atTop [0x7C, 0x64, 0x29, 0x2F]) 0xFFFFFFFC [0x7C, 0x64, 0x29, 0x2F] = true ∧
      decode [0x7C, 0x64, 0x29, 0x2F] = .error (.invalidForm .storeRc)) := by decide

theorem witness_EndedRunsStayEnded :
    (State.reset.raise (.dsi 0)).fault = some ⟨.dsi 0, 0x100⟩ ∧
    ((State.reset.recordRefusal .littleEndianMode).fault = none ∧
      (State.reset.recordRefusal .littleEndianMode).refused = some ⟨.littleEndianMode, 0x100⟩) ∧
    ((atTop [0, 0, 0, 0]).fault = none ∧ (atTop [0, 0, 0, 0]).refused = none ∧
      Machine.step (atTop [0, 0, 0, 0]) = .refused (.notInScope 0)) := ⟨by decide, by decide, by decide, by decide, rfl⟩

/-- Reset with the end of the run at its pc. -/
def ended : State := { State.reset with platform := { Platform.reset with endPc := some 0x100 } }

theorem witness_FinalStateFetchesNothing :
    ended.platform.byteOrder = .big ∧ ended.pc.toNat % 4 = 0 ∧ ended.isFinal = true := by decide

theorem witness_LaunchesOutsideTheModelAreRefused :
    ({ Platform.reset with byteOrder := .little } : Platform).byteOrder = .little ∧
    Platform.reset.byteOrder = .big ∧ (0x103 : Word).toNat % 4 ≠ 0 := by decide

theorem witness_BaseIsZeroOrTheRegister : (31 : Reg) ≠ 0 := by decide

theorem witness_ByteLoadsComplete :
    holdsBytes top (top.eaD 1 3).toNat [0xEF] = true ∧ holdsBytes top (top.eaX 1 5).toNat [0xEF] = true ∧
    ((1 : Reg) ≠ 0 ∧ (1 : Reg) ≠ 9 ∧ holdsBytes top (top.eaDU 1 3).toNat [0xEF] = true) ∧
    holdsBytes top (top.eaXU 1 5).toNat [0xEF] = true := by decide

/-- Also the hypotheses of AlgebraicLoadsComplete, which are the same. -/
theorem witness_HalfWordLoadsComplete :
    (fits (top.eaD 1 2) 2 = true ∧ alignedOrPerformed top (top.eaD 1 2) 2 = true ∧
      holdsBytes top (top.eaD 1 2).toNat [0xBE, 0xEF] = true) ∧
    (fits (topPerforms.eaX 1 3) 2 = true ∧ alignedOrPerformed topPerforms (topPerforms.eaX 1 3) 2 = true ∧
      holdsBytes topPerforms (topPerforms.eaX 1 3).toNat [0xAD, 0xBE] = true) ∧
    ((1 : Reg) ≠ 0 ∧ (1 : Reg) ≠ 31 ∧ fits (top.eaDU 1 2) 2 = true ∧ alignedOrPerformed top (top.eaDU 1 2) 2 = true ∧
      holdsBytes top (top.eaDU 1 2).toNat [0xBE, 0xEF] = true) ∧
    (fits (top.eaXU 1 4) 2 = true ∧ alignedOrPerformed top (top.eaXU 1 4) 2 = true ∧
      holdsBytes top (top.eaXU 1 4).toNat [0xBE, 0xEF] = true) := by decide

theorem witness_AlgebraicLoadsComplete :
    fits (top.eaD 1 2) 2 = true ∧ alignedOrPerformed top (top.eaD 1 2) 2 = true ∧
    holdsBytes top (top.eaD 1 2).toNat [0xBE, 0xEF] = true ∧ holdsBytes top (top.eaX 1 4).toNat [0xBE, 0xEF] = true ∧
    holdsBytes top (top.eaDU 1 2).toNat [0xBE, 0xEF] = true ∧
    holdsBytes top (top.eaXU 1 4).toNat [0xBE, 0xEF] = true := by decide

theorem witness_WordLoadsComplete :
    (fits (top.eaD 1 0) 4 = true ∧ alignedOrPerformed top (top.eaD 1 0) 4 = true ∧
      holdsBytes top (top.eaD 1 0).toNat [0xDE, 0xAD, 0xBE, 0xEF] = true) ∧
    (fits (top.eaX 1 2) 4 = true ∧ alignedOrPerformed top (top.eaX 1 2) 4 = true ∧
      holdsBytes top (top.eaX 1 2).toNat [0xDE, 0xAD, 0xBE, 0xEF] = true) ∧
    ((1 : Reg) ≠ 0 ∧ (1 : Reg) ≠ 0 ∧ fits (top.eaDU 1 0) 4 = true ∧ alignedOrPerformed top (top.eaDU 1 0) 4 = true ∧
      holdsBytes top (top.eaDU 1 0).toNat [0xDE, 0xAD, 0xBE, 0xEF] = true) ∧
    (fits (top.eaXU 1 2) 4 = true ∧ alignedOrPerformed top (top.eaXU 1 2) 4 = true ∧
      holdsBytes top (top.eaXU 1 2).toNat [0xDE, 0xAD, 0xBE, 0xEF] = true) := by decide

theorem witness_ByteReverseLoadsComplete :
    (fits (top.eaX 1 4) 2 = true ∧ alignedOrPerformed top (top.eaX 1 4) 2 = true ∧
      holdsBytes top (top.eaX 1 4).toNat [0xBE, 0xEF] = true) ∧
    (fits (top.eaX 1 2) 4 = true ∧ alignedOrPerformed top (top.eaX 1 2) 4 = true ∧
      holdsBytes top (top.eaX 1 2).toNat [0xDE, 0xAD, 0xBE, 0xEF] = true) := by decide

theorem witness_ByteStoresComplete :
    admitted top (top.eaD 1 3).toNat 1 = true ∧ admitted top (top.eaX 1 5).toNat 1 = true ∧
    ((1 : Reg) ≠ 0 ∧ admitted top (top.eaDU 1 3).toNat 1 = true) ∧ admitted top (top.eaXU 1 5).toNat 1 = true := by decide

theorem witness_HalfWordStoresComplete :
    (fits (top.eaD 1 2) 2 = true ∧ alignedOrPerformed top (top.eaD 1 2) 2 = true ∧
      admitted top (top.eaD 1 2).toNat 2 = true) ∧
    (fits (topPerforms.eaX 1 3) 2 = true ∧ alignedOrPerformed topPerforms (topPerforms.eaX 1 3) 2 = true ∧
      admitted topPerforms (topPerforms.eaX 1 3).toNat 2 = true) ∧
    ((1 : Reg) ≠ 0 ∧ fits (top.eaDU 1 2) 2 = true ∧ alignedOrPerformed top (top.eaDU 1 2) 2 = true ∧
      admitted top (top.eaDU 1 2).toNat 2 = true) ∧
    (fits (top.eaXU 1 4) 2 = true ∧ alignedOrPerformed top (top.eaXU 1 4) 2 = true ∧
      admitted top (top.eaXU 1 4).toNat 2 = true) := by decide

theorem witness_WordStoresComplete :
    (fits (top.eaD 1 0) 4 = true ∧ alignedOrPerformed top (top.eaD 1 0) 4 = true ∧
      admitted top (top.eaD 1 0).toNat 4 = true) ∧
    (fits (top.eaX 1 2) 4 = true ∧ alignedOrPerformed top (top.eaX 1 2) 4 = true ∧
      admitted top (top.eaX 1 2).toNat 4 = true) ∧
    ((1 : Reg) ≠ 0 ∧ fits (top.eaDU 1 0) 4 = true ∧ alignedOrPerformed top (top.eaDU 1 0) 4 = true ∧
      admitted top (top.eaDU 1 0).toNat 4 = true) ∧
    (fits (top.eaXU 1 2) 4 = true ∧ alignedOrPerformed top (top.eaXU 1 2) 4 = true ∧
      admitted top (top.eaXU 1 2).toNat 4 = true) := by decide

theorem witness_ByteReverseStoresComplete :
    (fits (top.eaX 1 4) 2 = true ∧ alignedOrPerformed top (top.eaX 1 4) 2 = true ∧
      admitted top (top.eaX 1 4).toNat 2 = true) ∧
    (fits (top.eaX 1 2) 4 = true ∧ alignedOrPerformed top (top.eaX 1 2) 4 = true ∧
      admitted top (top.eaX 1 2).toNat 4 = true) := by decide

/-- One register, its block ending at 2^32. -/
theorem witness_LoadMultipleCompletes :
    (1 : Reg).toNat < (31 : Reg).toNat ∧ [0xDE, 0xAD, 0xBE, (0xEF : Byte)].length = multipleLength 31 ∧
    fits (top.eaD 1 0) (multipleLength 31) = true ∧ (top.eaD 1 0).toNat % 4 = 0 ∧
    holdsBytes top (top.eaD 1 0).toNat [0xDE, 0xAD, 0xBE, 0xEF] = true := by decide

/-- All 32 registers, rA among them. -/
theorem witness_StoreMultipleCompletes :
    fits (top.eaD 3 3) (multipleLength 0) = true ∧ (top.eaD 3 3).toNat % 4 = 0 ∧
    admitted top (top.eaD 3 3).toNat (multipleLength 0) = true := by decide

/-- The run r31, r0, r1 from 0x1001, rA just outside it. -/
theorem witness_LoadStringImmediateCompletes :
    registerRunHas 31 (registerCount (immediateCount 9)) 2 = false ∧ memT.length = immediateCount 9 ∧
    fits ((start [(2, 0x1001)] memT).eaI 2) (immediateCount 9) = true ∧
    holdsBytes (start [(2, 0x1001)] memT) ((start [(2, 0x1001)] memT).eaI 2).toNat (memT.map Prod.snd) = true := by
  decide

/-- The run r5, r6, its neighbours rA = r4 and rB = r7. -/
def lswxState : State := State.counts (start [(4, 0x1000), (7, 1)] memT) 8

theorem witness_LoadStringIndexedCompletes :
    (5 : Reg) ≠ 4 ∧ (5 : Reg) ≠ 7 ∧ lswxOverlap lswxState 5 4 7 = false ∧ lswxState.xerBc ≠ 0 ∧
    ((memT.map Prod.snd).take 8).length = lswxState.xerBc.toNat ∧ fits (lswxState.eaX 4 7) lswxState.xerBc.toNat = true ∧
    holdsBytes lswxState (lswxState.eaX 4 7).toNat ((memT.map Prod.snd).take 8) = true := by decide

theorem witness_LoadStringOfNoByteCompletes : (5 : Reg) ≠ 4 ∧ (5 : Reg) ≠ 6 ∧ State.reset.xerBc = 0 := by decide

/-- 32 bytes at 0, and one byte at the top. -/
theorem witness_StoreStringImmediateCompletes :
    (fits (top.eaI 0) (immediateCount 0) = true ∧ admitted top (top.eaI 0).toNat (immediateCount 0) = true) ∧
    (fits (top.eaI 1) (immediateCount 4) = true ∧ admitted top (top.eaI 1).toNat (immediateCount 4) = true) := by decide

/-- 127 bytes, and none. -/
theorem witness_StoreStringIndexedCompletes :
    (fits ((State.counts top 127).eaX 0 2) (State.counts top 127).xerBc.toNat = true ∧
      admitted (State.counts top 127) ((State.counts top 127).eaX 0 2).toNat (State.counts top 127).xerBc.toNat = true) ∧
    (fits (top.eaX 1 5) top.xerBc.toNat = true ∧ admitted top (top.eaX 1 5).toNat top.xerBc.toNat = true) := by decide

/-- lwz: misaligned at 0x1001; its last byte not admitted; its last byte without a value. lwzu likewise. -/
theorem witness_SingleLoadsRaise :
    ((.lwz 3 1 4, 0x1001, 4) ∈ plainLoads (start [(4, 0x1000)] mem1) 3 4 5 1 ∧ fits 0x1001 4 = true ∧
      alignedOrPerformed (start [(4, 0x1000)] mem1) 0x1001 4 = false) ∧
    ((.lwz 3 0 4, 0x1000, 4) ∈ plainLoads (State.below (start [(4, 0x1000)] mem1) 0x1003) 3 4 5 0 ∧
      alignedOrPerformed (State.below (start [(4, 0x1000)] mem1) 0x1003) 0x1000 4 = true ∧
      admitted (State.below (start [(4, 0x1000)] mem1) 0x1003) 0x1000 4 = false) ∧
    ((.lwzu 3 0 4, 0x1000, 4) ∈ updateLoads (start [(4, 0x1000)] (bytesAt 0x1000 [1, 2, 3])) 3 4 5 0 ∧
      Instr.wellFormed (.lwzu 3 0 4) = true ∧ fits 0x1000 4 = true ∧
      alignedOrPerformed (start [(4, 0x1000)] (bytesAt 0x1000 [1, 2, 3])) 0x1000 4 = true ∧
      firstValueless (start [(4, 0x1000)] (bytesAt 0x1000 [1, 2, 3])) 0x1000 4 3 = true) := by decide

theorem witness_SingleStoresRaise :
    ((.sth 3 1 4, 0x1001, 2) ∈ plainStores (start [(4, 0x1000)] []) 3 4 5 1 ∧ fits 0x1001 2 = true ∧
      alignedOrPerformed (start [(4, 0x1000)] []) 0x1001 2 = false) ∧
    ((.stwu 3 0 4, 0x1000, 4) ∈ updateStores (State.below (start [(4, 0x1000)] []) 0x1003) 3 4 5 0 ∧
      Instr.wellFormed (.stwu 3 0 4) = true ∧ fits 0x1000 4 = true ∧
      alignedOrPerformed (State.below (start [(4, 0x1000)] []) 0x1003) 0x1000 4 = true ∧
      admitted (State.below (start [(4, 0x1000)] []) 0x1003) 0x1000 4 = false) := by decide

theorem witness_MisalignedMultipleRaises :
    fits (topPerforms.eaD 3 0) (multipleLength 29) = true ∧ (topPerforms.eaD 3 0).toNat % 4 ≠ 0 ∧
    (3 : Reg).toNat < (29 : Reg).toNat := by decide

/-- lmw stopped at the last byte of its last word (item 1), and lswi and lswx at their last byte: not admitted, without a value,
not admitted. -/
theorem witness_InterruptedRunLoadsLeaveOldOrNew :
    ((.lmw 30 0 4, 0x1000, 8, 4) ∈ runLoads (State.below (start [(4, 0x1000)] memM) 0x1007) 30 4 5 0 0 ∧
      valid (State.below (start [(4, 0x1000)] memM) 0x1007) (.lmw 30 0 4) = true ∧ fits 0x1000 8 = true ∧
      blockAligned 0x1000 4 = true ∧ readable (State.below (start [(4, 0x1000)] memM) 0x1007) 0x1000 4 = true ∧
      admitted (State.below (start [(4, 0x1000)] memM) 0x1007) 0x1004 4 = false) ∧
    ((.lswi 5 4 10, 0x1001, 10, 1) ∈ runLoads (start [(4, 0x1001)] memT) 5 4 3 0 10 ∧
      valid (start [(4, 0x1001)] memT) (.lswi 5 4 10) = true ∧ blockAligned 0x1001 1 = true ∧
      readable (start [(4, 0x1001)] memT) 0x1001 9 = true ∧ firstValueless (start [(4, 0x1001)] memT) 0x100A 1 0 = true) ∧
    ((.lswx 5 4 7, 0x1001, 8, 1) ∈ runLoads (State.below lswxState 0x1008) 5 4 7 0 0 ∧
      valid (State.below lswxState 0x1008) (.lswx 5 4 7) = true ∧
      readable (State.below lswxState 0x1008) 0x1001 7 = true ∧
      admitted (State.below lswxState 0x1008) 0x1008 1 = false) := by decide

theorem witness_InterruptedRunStoresLeaveOldOrNew :
    ((.stmw 30 0 4, 0x1000, 8, 4) ∈ runStores (State.below (start [(4, 0x1000)] []) 0x1007) 30 4 5 0 0 ∧
      fits 0x1000 8 = true ∧ blockAligned 0x1000 4 = true ∧
      firstUnadmitted (State.below (start [(4, 0x1000)] []) 0x1007) 0x1000 8 7 = true) ∧
    ((.stswi 5 4 3, 0x1FFE, 3, 1) ∈ runStores (State.below (start [(4, 0x1FFE)] []) 0x2000) 5 4 3 0 3 ∧
      fits 0x1FFE 3 = true ∧ blockAligned 0x1FFE 1 = true ∧
      firstUnadmitted (State.below (start [(4, 0x1FFE)] []) 0x2000) 0x1FFE 3 2 = true) ∧
    ((.stswx 5 4 7, 0x1001, 8, 1) ∈ runStores (State.below lswxState 0x1001) 5 4 7 0 0 ∧
      firstUnadmitted (State.below lswxState 0x1001) 0x1001 8 0 = true) := by decide

theorem witness_AccessPastTheTopIsRefused :
    ((.lhz 3 3 1, 0xFFFFFFFF, 2) ∈ plainLoads top 3 1 5 3 ∧ Instr.wellFormed (.lhz 3 3 1) = true ∧
      fits 0xFFFFFFFF 2 = false) ∧
    ((.stmw 30 0 1, 0xFFFFFFFC, 8, 4) ∈ runStores top 30 1 5 0 0 ∧ valid top (.stmw 30 0 1) = true ∧
      fits 0xFFFFFFFC 8 = false) := by decide

theorem witness_SingleLoadsFrame :
    (∃ t, exec (.lbz 6 3 1) top = .next t) ∧ (∃ t, exec (.lbzu 6 3 1) top = .next t) :=
  ⟨exists_of_answers (by decide), exists_of_answers (by decide)⟩

theorem witness_SingleStoresFrame :
    (∃ t, exec (.stwx 6 1 2) top = .next t) ∧ (∃ t, exec (.stwux 6 1 2) top = .next t) :=
  ⟨exists_of_answers (by decide), exists_of_answers (by decide)⟩

theorem witness_RunLoadsFrame :
    (∃ t, exec (.lmw 31 0 1) top = .next t) ∧ (∃ t, exec (.lswi 6 1 4) top = .next t) ∧
    (∃ t, exec (.lswx 6 1 2) top = .next t) :=
  ⟨exists_of_answers (by decide), exists_of_answers (by decide), exists_of_answers (by decide)⟩

theorem witness_RunStoresFrame :
    (∃ t, exec (.stmw 31 0 1) top = .next t) ∧ (∃ t, exec (.stswi 6 1 4) top = .next t) ∧
    (∃ t, exec (.stswx 6 1 2) top = .next t) :=
  ⟨exists_of_answers (by decide), exists_of_answers (by decide), exists_of_answers (by decide)⟩

/-- A step that stores. Also the hypothesis of MemoryChangesOnlyAtDirtyAddresses. -/
theorem witness_StepKeepsXerAndParameters : ∃ t, Machine.step twoInstructions = .next t :=
  exists_of_answers (by decide)

/-- An instruction that completes and one that raises. -/
theorem witness_PcAdvancesByFourOrTheFaultIsRecorded :
    (∃ t, exec (.lwz 6 0 1) top = .next t) ∧ (∃ t, exec (.lwz 6 1 2) top = .next t) :=
  ⟨exists_of_answers (by decide), exists_of_answers (by decide)⟩

theorem witness_LaunchMeetsTheInvariant :
    (0xFFFFFFFC : Word).toNat % 4 = 0 ∧ Memory.wf mem1 = true ∧
    ∀ c ∈ mem1, (State.below State.reset 0x1004).platform.memAdmit.any (·.covers c.1) = true := by decide

theorem witness_StepKeepsTheInvariant : twoInstructions.Inv ∧ ∃ t, Machine.step twoInstructions = .next t :=
  ⟨by decide, exists_of_answers (by decide)⟩

theorem witness_MemoryChangesOnlyAtDirtyAddresses : ∃ t, Machine.step twoInstructions = .next t :=
  exists_of_answers (by decide)

/-- After the store the load is about to execute. -/
theorem witness_RunsExecuteOnlyLaunchCode :
    twoInstructions.dirtyCode = [] ∧ ∃ t, Host.Core.run Sys2Proof.core 1 twoInstructions = .next t ∧
      State.issue t = .run (.lwz 4 0x200 0) := ⟨by decide, _, rfl, by decide⟩

/-- The state after a store of r3 = 0x12345678 by this instruction at 0x1000 (r1, r2 = 0). -/
def afterStore (i : Instr) : State :=
  match exec i (start [(1, 0x1000), (3, 0x12345678)] []) with
  | .next t => t
  | _ => State.reset

theorem witness_StoreThenLoadGivesTheValue :
    (exec (.stw 3 0 1) (start [(1, 0x1000), (3, 0x12345678)] []) = .next (afterStore (.stw 3 0 1)) ∧
      (afterStore (.stw 3 0 1)).pc = 0x104) ∧
    (exec (.sth 3 0 1) (start [(1, 0x1000), (3, 0x12345678)] []) = .next (afterStore (.sth 3 0 1)) ∧
      (afterStore (.sth 3 0 1)).pc = 0x104) ∧
    (exec (.stb 3 0 1) (start [(1, 0x1000), (3, 0x12345678)] []) = .next (afterStore (.stb 3 0 1)) ∧
      (afterStore (.stb 3 0 1)).pc = 0x104) ∧
    (exec (.stwbrx 3 1 2) (start [(1, 0x1000), (3, 0x12345678)] []) = .next (afterStore (.stwbrx 3 1 2)) ∧
      (afterStore (.stwbrx 3 1 2)).pc = 0x104) :=
  ⟨⟨rfl, by decide⟩, ⟨rfl, by decide⟩, ⟨rfl, by decide⟩, ⟨rfl, by decide⟩⟩

/-- rA = rD is invalid; rA one below it, and rA = rB, are not. -/
theorem witness_UpdateLoadIsLoadThenUpdate :
    ((31 : Reg) = 0 ∨ (31 : Reg) = 31) ∧ (.lwzux 31 31 1, 0, 4) ∈ updateLoads State.reset 31 31 1 0 ∧
    ((30 : Reg) ≠ 0 ∧ (30 : Reg) ≠ 31) := by decide

theorem witness_UpdateStoreIsStoreThenUpdate :
    (.stwux 31 0 1, 0, 4) ∈ updateStores State.reset 31 0 1 0 ∧ (31 : Reg) ≠ 0 := by decide

/-- The last displacement that 16 signed bits hold. -/
theorem witness_LoadMultipleIsWordLoads :
    let s := start [(1, 0xFFFF9004)] mem1
    (1 : Reg).toNat < (31 : Reg).toNat ∧ (mem1.map Prod.snd).length = multipleLength 31 ∧
    fits (s.eaD 1 0x7FFC) (multipleLength 31) = true ∧ (s.eaD 1 0x7FFC).toNat % 4 = 0 ∧
    holdsBytes s (s.eaD 1 0x7FFC).toNat (mem1.map Prod.snd) = true ∧
    (0x7FFC : BitVec 16).toInt + multipleLength 31 ≤ 32768 := by decide

theorem witness_StoreMultipleIsWordStores :
    let s := start [(1, 0xFFFF9004)] []
    fits (s.eaD 1 0x7FFC) (multipleLength 31) = true ∧ (s.eaD 1 0x7FFC).toNat % 4 = 0 ∧
    admitted s (s.eaD 1 0x7FFC).toNat (multipleLength 31) = true ∧
    (0x7FFC : BitVec 16).toInt + multipleLength 31 ≤ 32768 := by decide

/-- All 32 bytes, r31 to r6. -/
theorem witness_LoadStringIsWordLoads :
    let bs := List.range 32
    let s := start [(7, 0x2000)] (bytesAt 0x2000 bs)
    immediateCount 0 = 4 * 8 ∧ (bs.map (BitVec.ofNat 8)).length = 4 * 8 ∧ registerRunHas 31 8 7 = false ∧
    fits (s.eaI 7) (4 * 8) = true ∧ (s.eaI 7).toNat % 4 = 0 ∧
    holdsBytes s (s.eaI 7).toNat (bs.map (BitVec.ofNat 8)) = true := by decide

end Sys2Proof.Tests
end

section
/-!
Address generation: what `(rA|0)` and the effective addresses are on field 0 and on any other field
(40_address_generation.md R46 to R50).
-/

namespace Sys2Proof.Machine

/-! ### Field 0: zero stands in place of the contents of r0 -/

theorem State.base_zero (s : State) : s.base 0 = 0 := if_pos rfl

theorem State.eaD_zero (s : State) (d : BitVec 16) : s.eaD 0 d = d.signExtend 32 := by
  rw [State.eaD, State.base_zero, displacement]
  exact BitVec.zero_add _

theorem State.eaX_zero (s : State) (rB : Reg) : s.eaX 0 rB = s.reg rB := by
  rw [State.eaX, State.base_zero]
  exact BitVec.zero_add _

theorem State.eaI_zero (s : State) : s.eaI 0 = 0 := s.base_zero

/-! ### Any other field: the register is read -/

theorem State.base_of_ne_zero (s : State) {rA : Reg} (h : rA ≠ 0) : s.base rA = s.reg rA := if_neg h

theorem State.eaI_of_ne_zero (s : State) {rA : Reg} (h : rA ≠ 0) : s.eaI rA = s.reg rA := s.base_of_ne_zero h

/-! ### The update forms read the register whatever its number -/

theorem State.eaDU_eq_eaD (s : State) {rA : Reg} (h : rA ≠ 0) (d : BitVec 16) : s.eaDU rA d = s.eaD rA d := by
  rw [State.eaDU, State.eaD, s.base_of_ne_zero h]

theorem State.eaXU_eq_eaX (s : State) {rA : Reg} (h : rA ≠ 0) (rB : Reg) : s.eaXU rA rB = s.eaX rA rB := by
  rw [State.eaXU, State.eaX, s.base_of_ne_zero h]

/-! ### What r0 holds reaches an effective address only through rB -/

theorem State.reg_setReg_of_ne (s : State) {r q : Reg} (h : q ≠ r) (v : Word) :
    (s.setReg r v).reg q = s.reg q := by
  rw [State.reg_setReg, if_neg h]

theorem State.eaX_zero_setReg_zero (s : State) {rB : Reg} (h : rB ≠ 0) (v : Word) :
    (s.setReg 0 v).eaX 0 rB = s.eaX 0 rB := by
  rw [State.eaX_zero, State.eaX_zero, s.reg_setReg_of_ne h]

/-- Settles O15, a clause at a time: field 0, independence from r0, any other field, and the update forms. -/
theorem baseIsZeroOrTheRegister : Obligations.BaseIsZeroOrTheRegister := by
  intro s rA rB d v
  refine ⟨rfl, ⟨s.eaD_zero d, s.eaX_zero rB, s.eaI_zero⟩, ⟨?immediate, ?indexed, ?indirect⟩, ?register, ⟨rfl, rfl⟩, ?update⟩
  case immediate => rw [State.eaD_zero, State.eaD_zero]
  case indexed => exact fun hB => s.eaX_zero_setReg_zero hB v
  case indirect => rw [State.eaI_zero, State.eaI_zero]
  case register => exact fun hA => ⟨(s.eaDU_eq_eaD hA d).symm, (s.eaXU_eq_eaX hA rB).symm, s.eaI_of_ne_zero hA⟩
  case update => exact fun hA => ⟨s.eaDU_eq_eaD hA d, s.eaXU_eq_eaX hA rB⟩

end Sys2Proof.Machine
end

section
/-!
Integer loads with update: the invalid forms are refused, and a valid one is the load without update and then the EA
into rA (41_integer_load.md R52).
-/

namespace Sys2Proof.Machine

open Sys2Proof.Claims

/-! ### The test on rA -/

theorem unlessLoadUpdateInvalid_of_invalid {rD rA : Reg} (h : rA = 0 ∨ rA = rD) (k : Out) :
    unlessLoadUpdateInvalid rD rA k = .refused (.invalidForm .loadUpdate) := if_pos h

theorem unlessLoadUpdateInvalid_of_valid {rD rA : Reg} (h0 : rA ≠ 0) (hD : rA ≠ rD) (k : Out) :
    unlessLoadUpdateInvalid rD rA k = k := if_neg (not_or.2 ⟨h0, hD⟩)

/-- What the eight meanings share: the test on rA, then the item at the EA. -/
theorem exec_updateLoad {s : State} {rD rA rB : Reg} {d : BitVec 16} {p : Instr × Word × Nat}
    (hp : p ∈ updateLoads s rD rA rB d) :
    ∃ conv, exec p.1 s = unlessLoadUpdateInvalid rD rA (s.loadItemUpdate p.2.1 p.2.2 conv rD rA) := by
  simp only [updateLoads, List.mem_cons, List.not_mem_nil, or_false] at hp
  obtain rfl | rfl | rfl | rfl | rfl | rfl | rfl | rfl := hp <;> exact ⟨_, rfl⟩

/-! ### The EA into rA after a completion, and only after one -/

/-- An advanced pc is not the old one, not even where it wraps: so `thenUpdate` tells a completion from a raise. -/
theorem State.advance_pc_ne (s : State) : s.advance.pc ≠ s.pc := by
  rw [State.advance_pc]
  bv_omega

theorem thenUpdate_advance {s u : State} (hpc : u.pc = s.pc) (rA : Reg) (ea : Word) :
    thenUpdate s rA ea (.next u.advance) = .next (u.setReg rA ea).advance :=
  if_neg (hpc ▸ u.advance_pc_ne)

theorem thenUpdate_raise (s : State) (rA : Reg) (ea : Word) (f : Fault) :
    thenUpdate s rA ea (.next (s.raise f)) = .next (s.raise f) := if_pos rfl

/-- The update commutes with the access: a wrap or a raise is answered as it is, a completion also writes rA. -/
theorem thenUpdate_withItem {s : State} {k : Word → State} (hk : ∀ v, (k v).pc = s.pc) (rA : Reg) (ea : Word)
    (n : Nat) : thenUpdate s rA ea (s.withItem ea n k) = s.withItem ea n fun v => (k v).setReg rA ea := by
  unfold State.withItem
  split
  · rfl
  · cases s.memRead ea n with
    | ok v => exact thenUpdate_advance (hk v) rA ea
    | error f => exact thenUpdate_raise s rA ea f

theorem State.loadItemUpdate_eq_thenUpdate (s : State) (ea : Word) (n : Nat) (conv : Word → Word) (rD rA : Reg) :
    s.loadItemUpdate ea n conv rD rA = thenUpdate s rA ea (s.loadItem ea n conv rD) :=
  (thenUpdate_withItem (fun v => s.setReg_pc rD (conv v)) rA ea n).symm

/-- A valid rA passes the test, and its EA is the one that the load without update computes (R46). -/
theorem validLoadUpdate_eq_thenUpdate {s : State} {rD rA : Reg} {eaU ea : Word} (h0 : rA ≠ 0) (hD : rA ≠ rD)
    (hea : eaU = ea) (n : Nat) (conv : Word → Word) :
    unlessLoadUpdateInvalid rD rA (s.loadItemUpdate eaU n conv rD rA) =
      thenUpdate s rA ea (s.loadItem ea n conv rD) := by
  rw [unlessLoadUpdateInvalid_of_valid h0 hD, hea, State.loadItemUpdate_eq_thenUpdate]

/-- Settles O52: the test refuses the invalid forms; past it, each of the eight is its load without update, at the same
EA, width and extension, and then the update. -/
theorem updateLoadIsLoadThenUpdate : Obligations.UpdateLoadIsLoadThenUpdate := by
  intro s rD rA rB d
  refine ⟨fun hInvalid p hp => ?refused, fun h0 hD => ?updated⟩
  case refused =>
    obtain ⟨conv, hexec⟩ := exec_updateLoad hp
    rw [hexec, unlessLoadUpdateInvalid_of_invalid hInvalid]
  case updated =>
    have immediate := validLoadUpdate_eq_thenUpdate (s := s) h0 hD (s.eaDU_eq_eaD h0 d)
    have indexed := validLoadUpdate_eq_thenUpdate (s := s) h0 hD (s.eaXU_eq_eaX h0 rB)
    exact ⟨immediate 1 zeroExtended, indexed 1 zeroExtended, immediate 2 zeroExtended, indexed 2 zeroExtended,
      immediate 2 halfAlgebraic, indexed 2 halfAlgebraic, immediate 4 zeroExtended, indexed 4 zeroExtended⟩

end Sys2Proof.Machine
end

section
/-!
Integer stores with update: the invalid form is refused, and a valid one is the store without update and then the EA
into rA (42_integer_store.md R71).
-/

namespace Sys2Proof.Machine

open Sys2Proof.Claims

/-! ### The test on rA -/

theorem unlessStoreUpdateInvalid_of_invalid {rA : Reg} (h : rA = 0) (k : Out) :
    unlessStoreUpdateInvalid rA k = .refused (.invalidForm .storeUpdate) := if_pos h

theorem unlessStoreUpdateInvalid_of_valid {rA : Reg} (h : rA ≠ 0) (k : Out) :
    unlessStoreUpdateInvalid rA k = k := if_neg h

/-- What the six meanings share: the test on rA, then rS, as it is before the update, stored at the EA. -/
theorem exec_updateStore {s : State} {rS rA rB : Reg} {d : BitVec 16} {p : Instr × Word × Nat}
    (hp : p ∈ updateStores s rS rA rB d) :
    exec p.1 s = unlessStoreUpdateInvalid rA (s.storeItemUpdate p.2.1 p.2.2 (s.reg rS) rA) := by
  simp only [updateStores, List.mem_cons, List.not_mem_nil, or_false] at hp
  obtain rfl | rfl | rfl | rfl | rfl | rfl := hp <;> rfl

/-! ### The EA into rA after a completion, and only after one -/

/-- The update commutes with the store, along its four answers: a wrap and the two raises are answered as they are, a
completion also writes rA. -/
theorem State.storeItemUpdate_eq_thenUpdate (s : State) (ea : Word) (n : Nat) (v : Word) (rA : Reg) :
    s.storeItemUpdate ea n v rA = thenUpdate s rA ea (s.storeItem ea n v) := by
  unfold State.storeItemUpdate State.storeItem State.withStore
  split
  case isTrue => rfl
  case isFalse =>
    split
    case isTrue => exact (thenUpdate_raise s rA ea (.alignment ea)).symm
    case isFalse =>
      cases s.admissionFault ea.toNat n 0 n with
      | some f => exact (thenUpdate_raise s rA ea f).symm
      | none => exact (thenUpdate_advance (s.storeBytes_pc ea.toNat (beBytes n v)) rA ea).symm

/-- A valid rA passes the test, and its EA is the one that the store without update computes (R46). -/
theorem validStoreUpdate_eq_thenUpdate {s : State} {rA : Reg} {eaU ea : Word} (h0 : rA ≠ 0) (hea : eaU = ea)
    (n : Nat) (v : Word) :
    unlessStoreUpdateInvalid rA (s.storeItemUpdate eaU n v rA) = thenUpdate s rA ea (s.storeItem ea n v) := by
  rw [unlessStoreUpdateInvalid_of_valid h0, hea, State.storeItemUpdate_eq_thenUpdate]

/-- Settles O53: the test refuses rA = 0; past it, each of the six is its store without update, of the same rS at the
same EA and width, and then the update. -/
theorem updateStoreIsStoreThenUpdate : Obligations.UpdateStoreIsStoreThenUpdate := by
  intro s rS rA rB d
  refine ⟨fun hInvalid p hp => ?refused, fun h0 => ?updated⟩
  case refused => rw [exec_updateStore hp, unlessStoreUpdateInvalid_of_invalid hInvalid]
  case updated =>
    have immediate (n : Nat) := validStoreUpdate_eq_thenUpdate (s := s) h0 (s.eaDU_eq_eaD h0 d) n (s.reg rS)
    have indexed (n : Nat) := validStoreUpdate_eq_thenUpdate (s := s) h0 (s.eaXU_eq_eaX h0 rB) n (s.reg rS)
    exact ⟨immediate 1, indexed 1, immediate 2, indexed 2, immediate 4, indexed 4⟩

end Sys2Proof.Machine
end

section
/-!
Encoding and decoding are inverse to each other, and the opcode table's match and mask say which words decode
(30_encoding.md R35 to R43).
-/

namespace Sys2Proof

open Sys2Proof.Claims

/-! ### A word is made of its fields -/

/-- A D-form word is the word of its own four fields (R35). -/
theorem dWord_fields (w : Word) :
    dWord (w.extractLsb' 26 6) (w.extractLsb' 21 5) (w.extractLsb' 16 5) (w.extractLsb' 0 16) = w := by
  apply BitVec.eq_of_getLsbD_eq
  intro i hi
  simp only [dWord, BitVec.getLsbD_append, BitVec.getLsbD_extractLsb']
  interval_cases i <;> simp

/-- An X-form word with bit 0 clear is the word of its own four fields (R36). -/
theorem xWord_fields {w : Word} (hop : w.extractLsb' 26 6 = 31) (hrc : w.getLsbD 0 = false) :
    xWord (w.extractLsb' 21 5) (w.extractLsb' 16 5) (w.extractLsb' 11 5) (w.extractLsb' 1 10) = w := by
  have hop' : 31#6 = w.extractLsb' 26 6 := hop.symm
  have hrc' : w[0] = false := by simpa using hrc
  apply BitVec.eq_of_getLsbD_eq
  intro i hi
  simp only [xWord, hop', BitVec.getLsbD_append, BitVec.getLsbD_extractLsb']
  interval_cases i <;> simp [hrc']

/-! ### What the decoder answers -/

theorem decodeWord_d {w : Word} {i : Instr} (hop : w.extractLsb' 26 6 ≠ 31)
    (h : decodeD (w.extractLsb' 26 6) (w.extractLsb' 21 5) (w.extractLsb' 16 5) (w.extractLsb' 0 16) = some i) :
    decodeWord w = .ok i := by
  simp only [decodeWord, if_neg hop, h]

theorem decodeWord_d_none {w : Word} (hop : w.extractLsb' 26 6 ≠ 31)
    (h : decodeD (w.extractLsb' 26 6) (w.extractLsb' 21 5) (w.extractLsb' 16 5) (w.extractLsb' 0 16) = none) :
    decodeWord w = .error (.notInScope w) := by
  simp only [decodeWord, if_neg hop, h]

theorem decodeWord_x {w : Word} {i : Instr} (hop : w.extractLsb' 26 6 = 31)
    (h : decodeX (w.extractLsb' 1 10) (w.extractLsb' 21 5) (w.extractLsb' 16 5) (w.extractLsb' 11 5) = some i) :
    decodeWord w = if w.getLsbD 0 then .error (.invalidForm (rcRow i)) else .ok i := by
  simp only [decodeWord, if_pos hop, h]

theorem decodeWord_x_none {w : Word} (hop : w.extractLsb' 26 6 = 31)
    (h : decodeX (w.extractLsb' 1 10) (w.extractLsb' 21 5) (w.extractLsb' 16 5) (w.extractLsb' 11 5) = none) :
    decodeWord w = .error (.notInScope w) := by
  simp only [decodeWord, if_pos hop, h]

/-- A word decodes in one of two ways: as a D-form row, or as an X-form row with bit 0 clear (R40, R41). -/
theorem decodeWord_ok {w : Word} {i : Instr} (h : decodeWord w = .ok i) :
    (w.extractLsb' 26 6 ≠ 31 ∧
      decodeD (w.extractLsb' 26 6) (w.extractLsb' 21 5) (w.extractLsb' 16 5) (w.extractLsb' 0 16) = some i) ∨
    (w.extractLsb' 26 6 = 31 ∧ w.getLsbD 0 = false ∧
      decodeX (w.extractLsb' 1 10) (w.extractLsb' 21 5) (w.extractLsb' 16 5) (w.extractLsb' 11 5) = some i) := by
  by_cases hop : w.extractLsb' 26 6 = 31
  · cases hx : decodeX (w.extractLsb' 1 10) (w.extractLsb' 21 5) (w.extractLsb' 16 5) (w.extractLsb' 11 5) with
    | none => rw [decodeWord_x_none hop hx] at h; cases h
    | some j =>
      rw [decodeWord_x hop hx] at h
      split at h
      · cases h
      · next hrc => cases h; exact .inr ⟨hop, by simpa using hrc, rfl⟩
  · cases hd : decodeD (w.extractLsb' 26 6) (w.extractLsb' 21 5) (w.extractLsb' 16 5) (w.extractLsb' 0 16) with
    | none => rw [decodeWord_d_none hop hd] at h; cases h
    | some j => rw [decodeWord_d hop hd] at h; cases h; exact .inl ⟨hop, rfl⟩

/-! ### The rows of the two forms -/

/-- What a D-form row fixes: its word, its match and its mask (R38). -/
theorem decodeD_some {op : BitVec 6} {r rA : Reg} {d : BitVec 16} {i : Instr} (h : decodeD op r rA d = some i) :
    encode i = dWord op r rA d ∧ rowMatch i = op ++ 0#26 ∧ rowMask i = 0xfc000000 := by
  unfold decodeD at h
  split at h <;> cases h <;> exact ⟨rfl, rfl, rfl⟩

/-- What an X-form row fixes: its word, its match and its mask (R39). -/
theorem decodeX_some {xo : BitVec 10} {r rA rB : Reg} {i : Instr} (h : decodeX xo r rA rB = some i) :
    encode i = xWord r rA rB xo ∧ rowMatch i = 31#6 ++ 0#15 ++ xo ++ 0#1 ∧ rowMask i = 0xfc0007ff := by
  unfold decodeX at h
  split at h <;> cases h <;> exact ⟨rfl, rfl, rfl⟩

/-- The opcode alone decides whether a D-form word is in the table, and as which row. -/
theorem decodeD_operands {op : BitVec 6} {r rA : Reg} {d : BitVec 16} {j : Instr} (h : decodeD op r rA d = some j)
    (r' rA' : Reg) (d' : BitVec 16) : ∃ i, decodeD op r' rA' d' = some i ∧ rowMatch i = rowMatch j := by
  unfold decodeD at h
  split at h <;> cases h <;> exact ⟨_, rfl, rfl⟩

/-- The extended opcode alone decides whether an X-form word is in the table, and as which row. -/
theorem decodeX_operands {xo : BitVec 10} {r rA rB : Reg} {j : Instr} (h : decodeX xo r rA rB = some j)
    (r' rA' rB' : Reg) : ∃ i, decodeX xo r' rA' rB' = some i ∧ rowMatch i = rowMatch j ∧ rcRow i = rcRow j := by
  unfold decodeX at h
  split at h <;> cases h <;> exact ⟨_, rfl, rfl, rfl⟩

/-- Each of the 38 is a D-form row (R38) or an X-form row (R39). -/
theorem encode_form (i : Instr) :
    (∃ op r rA d, encode i = dWord op r rA d ∧ op ≠ 31 ∧ decodeD op r rA d = some i) ∨
    (∃ xo r rA rB, encode i = xWord r rA rB xo ∧ decodeX xo r rA rB = some i) := by
  cases i with
  | lbz r d rA | lbzu r d rA | lhz r d rA | lhzu r d rA | lha r d rA | lhau r d rA | lwz r d rA | lwzu r d rA
  | stb r d rA | stbu r d rA | sth r d rA | sthu r d rA | stw r d rA | stwu r d rA | lmw r d rA | stmw r d rA =>
    exact .inl ⟨_, r, rA, d, rfl, by decide, rfl⟩
  | lbzx r rA rB | lbzux r rA rB | lhzx r rA rB | lhzux r rA rB | lhax r rA rB | lhaux r rA rB | lwzx r rA rB
  | lwzux r rA rB | stbx r rA rB | stbux r rA rB | sthx r rA rB | sthux r rA rB | stwx r rA rB | stwux r rA rB
  | lhbrx r rA rB | lwbrx r rA rB | sthbrx r rA rB | stwbrx r rA rB | lswi r rA rB | lswx r rA rB | stswi r rA rB
  | stswx r rA rB =>
    exact .inr ⟨_, r, rA, rB, rfl, rfl⟩

/-! ### Decoding an encoding -/

theorem decodeWord_encode (i : Instr) : decodeWord (encode i) = .ok i := by
  rcases encode_form i with ⟨op, r, rA, d, he, hop, hd⟩ | ⟨xo, r, rA, rB, he, hx⟩
  · rw [he]; exact decodeWord_d (by simpa using hop) (by simpa using hd)
  · rw [he, decodeWord_x (xWord_op r rA rB xo) (by simpa using hx), xWord_rc]; rfl

/-- The decoder reads a word back from its four bytes (R34). -/
theorem decode_beBytes (w : Word) : decode (beBytes 4 w) = decodeWord w := by
  rw [decode, List.take_of_length_le (by simp), beWord_beBytes]

theorem tableBytes_encode (i : Instr) : tableBytes 32 (encode i).toNat = encodeBytes i := by
  rw [tableBytes, encodeBytes, Nat.mod_eq_of_lt (encode i).isLt, BitVec.ofNat_toNat, BitVec.setWidth_eq]

/-- Settles O1: the decoder reads the word back from its bytes, and each form's fields are the operands. -/
theorem decodeOfEncodeIsTheInstruction : Obligations.DecodeOfEncodeIsTheInstruction := by
  intro i
  have h : decode (encodeBytes i) = .ok i := (decode_beBytes _).trans (decodeWord_encode i)
  exact ⟨h, by rw [decodeTableWord, tableBytes_encode, h]⟩

/-- Settles O2, a form at a time: the row fixes the word of its fields, and a word is made of its fields. -/
theorem decodedWordIsItsEncoding : Obligations.DecodedWordIsItsEncoding := by
  intro w i h
  rcases decodeWord_ok h with ⟨-, hd⟩ | ⟨hop, hrc, hx⟩
  · exact (decodeD_some hd).1.trans (dWord_fields w)
  · exact (decodeX_some hx).1.trans (xWord_fields hop hrc)

/-! ### The masks of the table -/

theorem bitVec_append_inj {n m : Nat} {a a' : BitVec n} {b b' : BitVec m} :
    a ++ b = a' ++ b' ↔ a = a' ∧ b = b' := by
  constructor
  · intro h
    have hleft := congrArg (BitVec.extractLsb' m n) h
    have hright := congrArg (BitVec.extractLsb' 0 m) h
    rw [BitVec.extractLsb'_append_eq_left, BitVec.extractLsb'_append_eq_left] at hleft
    rw [BitVec.extractLsb'_append_eq_right, BitVec.extractLsb'_append_eq_right] at hright
    exact ⟨hleft, hright⟩
  · rintro ⟨rfl, rfl⟩; rfl

theorem and_dMask (w : Word) : w &&& 0xfc000000 = w.extractLsb' 26 6 ++ 0#26 := by
  conv => lhs; rw [← dWord_fields w, Laws.EncodedRow.dRow]

theorem and_xMask (w : Word) :
    w &&& 0xfc0007ff = w.extractLsb' 26 6 ++ 0#15 ++ w.extractLsb' 1 10 ++ w.extractLsb' 0 1 := by
  apply BitVec.eq_of_getLsbD_eq
  intro i hi
  simp only [BitVec.getLsbD_and, BitVec.getLsbD_append, BitVec.getLsbD_extractLsb']
  interval_cases i <;> simp

/-- The X-form's mask without bit 0 (R41). -/
theorem and_xMaskButRc (w : Word) :
    w &&& 0xfc0007fe = w.extractLsb' 26 6 ++ 0#15 ++ w.extractLsb' 1 10 ++ 0#1 := by
  apply BitVec.eq_of_getLsbD_eq
  intro i hi
  simp only [BitVec.getLsbD_and, BitVec.getLsbD_append, BitVec.getLsbD_extractLsb']
  interval_cases i <;> simp

theorem extractLsb'_zero_one {w : Word} (h : w.extractLsb' 0 1 = 0#1) : w.getLsbD 0 = false := by
  have := congrArg (BitVec.getLsbD · 0) h
  simpa using this

/-- A row's mask is that of its form, which its primary opcode decides. -/
theorem rowMask_eq (i : Instr) :
    rowMask i = if (rowMatch i).extractLsb' 26 6 = 31 then 0xfc0007ff else 0xfc000000 := by
  cases i <;> simp [rowMask, rowMatch]

theorem encode_and_rowMask (i : Instr) : encode i &&& rowMask i = rowMatch i := by
  rcases encode_form i with ⟨op, r, rA, d, he, -, hd⟩ | ⟨xo, r, rA, rB, he, hx⟩
  · obtain ⟨-, hmatch, hmask⟩ := decodeD_some hd
    rw [he, hmatch, hmask, Laws.EncodedRow.dRow]
  · obtain ⟨-, hmatch, hmask⟩ := decodeX_some hx
    rw [he, hmatch, hmask, Laws.EncodedRow.xRow]

/-- A word with a D-form row's opcode decodes to an instruction of that row, whatever its other bits (R38, R41). -/
theorem decodeWord_of_dRow {w : Word} {j : Instr} (hmask : rowMask j = 0xfc000000)
    (h : w &&& 0xfc000000 = rowMatch j) : ∃ i, decodeWord w = .ok i ∧ rowMatch i = rowMatch j := by
  rcases encode_form j with ⟨op, r, rA, d, -, hop, hd⟩ | ⟨xo, r, rA, rB, -, hx⟩
  · rw [(decodeD_some hd).2.1, and_dMask, bitVec_append_inj] at h
    obtain ⟨rfl, -⟩ := h
    obtain ⟨i, hi, hrow⟩ := decodeD_operands hd (w.extractLsb' 21 5) (w.extractLsb' 16 5) (w.extractLsb' 0 16)
    exact ⟨i, decodeWord_d hop hi, hrow⟩
  · rw [(decodeX_some hx).2.2] at hmask
    exact absurd hmask (by decide)

/-- A word with an X-form row's two opcodes is looked up as an instruction of that row, whatever its other bits. -/
theorem decodeX_of_xRow {w : Word} {j : Instr} (hmask : rowMask j = 0xfc0007ff)
    (h : w &&& 0xfc0007fe = rowMatch j) :
    w.extractLsb' 26 6 = 31 ∧
    ∃ i, decodeX (w.extractLsb' 1 10) (w.extractLsb' 21 5) (w.extractLsb' 16 5) (w.extractLsb' 11 5) = some i ∧
      rowMatch i = rowMatch j ∧ rcRow i = rcRow j := by
  rcases encode_form j with ⟨op, r, rA, d, -, -, hd⟩ | ⟨xo, r, rA, rB, -, hx⟩
  · rw [(decodeD_some hd).2.2] at hmask
    exact absurd hmask (by decide)
  · rw [(decodeX_some hx).2.1, and_xMaskButRc] at h
    rw [bitVec_append_inj, bitVec_append_inj, bitVec_append_inj] at h
    obtain ⟨⟨⟨hop, -⟩, rfl⟩, -⟩ := h
    exact ⟨hop, decodeX_operands hx _ _ _⟩

/-- The mask with bit 0 asks what the mask without it asks, and that bit 0 is clear. -/
theorem and_xMask_eq_rowMatch {w : Word} {j : Instr} (hmask : rowMask j = 0xfc0007ff)
    (h : w &&& 0xfc0007ff = rowMatch j) : w &&& 0xfc0007fe = rowMatch j ∧ w.getLsbD 0 = false := by
  rcases encode_form j with ⟨op, r, rA, d, -, -, hd⟩ | ⟨xo, r, rA, rB, -, hx⟩
  · rw [(decodeD_some hd).2.2] at hmask
    exact absurd hmask (by decide)
  · rw [(decodeX_some hx).2.1, and_xMask, bitVec_append_inj] at h
    rw [(decodeX_some hx).2.1, and_xMaskButRc, h.1]
    exact ⟨rfl, extractLsb'_zero_one h.2⟩

/-- Settles O3. A decoded word is its instruction's word, which agrees with its row; a word that agrees with a row has
the row's opcodes, which the decoder looks up. -/
theorem wordIsTheRowIffMaskedMatch : Obligations.WordIsTheRowIffMaskedMatch := by
  intro w j
  constructor
  · rintro ⟨i, hdec, hrow⟩
    have hmask : rowMask i = rowMask j := by rw [rowMask_eq, rowMask_eq, hrow]
    rw [← decodedWordIsItsEncoding w i hdec, ← hrow, ← hmask, encode_and_rowMask]
  · intro h
    rcases encode_form j with ⟨op, r, rA, d, -, -, hd⟩ | ⟨xo, r, rA, rB, -, hx⟩
    · have hmask := (decodeD_some hd).2.2
      exact decodeWord_of_dRow hmask (hmask ▸ h)
    · have hmask := (decodeX_some hx).2.2
      obtain ⟨hmatch, hrc⟩ := and_xMask_eq_rowMatch hmask (hmask ▸ h)
      obtain ⟨hop, i, hi, hrow, -⟩ := decodeX_of_xRow hmask hmatch
      exact ⟨i, by rw [decodeWord_x hop hi, hrc]; rfl, hrow⟩

/-! ### Words that are no instruction -/

/-- Bit 0 set makes an X-form store row 3 of R42 and an X-form load row 5 (R41). -/
theorem rcRow_eq (i : Instr) : rcRow i = if isIndexedStore i then .storeRc else .loadRc := by
  cases i <;> rfl

/-- XO 150 is stwcx., no row of the table (R41). -/
theorem decodeWord_xo150 (r rA rB : Reg) :
    decodeWord (xWord r rA rB 150 ||| 1) = .error (.notInScope (xWord r rA rB 150 ||| 1)) := by
  have hop : (xWord r rA rB 150 ||| 1).extractLsb' 26 6 = 31 := by
    rw [BitVec.extractLsb'_or, xWord_op]; rfl
  have hxo : (xWord r rA rB 150 ||| 1).extractLsb' 1 10 = 150 := by
    rw [BitVec.extractLsb'_or, xWord_xo]; rfl
  exact decodeWord_x_none hop (by rw [hxo]; rfl)

/-- Settles O4: an X-form word is looked up before its bit 0 is tested, a D-form word has no such bit, and XO 150 is
in no row. -/
theorem setRcBitIsTheInvalidFormOfItsRow : Obligations.SetRcBitIsTheInvalidFormOfItsRow := by
  refine ⟨fun w j hmask hmatch hrc => ?_, fun w j hmask hmatch => decodeWord_of_dRow hmask hmatch, decodeWord_xo150⟩
  obtain ⟨hop, i, hi, -, hrow⟩ := decodeX_of_xRow hmask hmatch
  rw [decodeWord_x hop hi, if_pos hrc, hrow, rcRow_eq]

/-- Settles O5: where the decoder's lookup succeeded, the word would agree with the row it found. -/
theorem otherWordsAreNotInScope : Obligations.OtherWordsAreNotInScope := by
  intro w hno
  by_cases hop : w.extractLsb' 26 6 = 31
  · cases hx : decodeX (w.extractLsb' 1 10) (w.extractLsb' 21 5) (w.extractLsb' 16 5) (w.extractLsb' 11 5) with
    | none => exact decodeWord_x_none hop hx
    | some j =>
      obtain ⟨-, hmatch, hmask⟩ := decodeX_some hx
      refine absurd ?_ (hno j)
      rw [rowMaskButRc, if_pos hmask, and_xMaskButRc, hmatch, hop]
      rfl
  · cases hd : decodeD (w.extractLsb' 26 6) (w.extractLsb' 21 5) (w.extractLsb' 16 5) (w.extractLsb' 0 16) with
    | none => exact decodeWord_d_none hop hd
    | some j =>
      obtain ⟨-, hmatch, hmask⟩ := decodeD_some hd
      refine absurd ?_ (hno j)
      rw [rowMaskButRc, hmask, if_neg (by decide), and_dMask, hmatch]

/-- Settles O6, each word by running the decoder on it. -/
theorem sampleWordsDecode : Obligations.SampleWordsDecode :=
  ⟨rfl, rfl, rfl, rfl, rfl, rfl, rfl⟩

/-! ### The bytes of an item and the item of its bytes (20_memory.md R20) -/

theorem beBytes_half (b₀ b₁ : Byte) : beBytes 2 ((b₀ ++ b₁).setWidth 32) = [b₀, b₁] := by
  simp only [beBytes, List.cons.injEq, and_true]
  rw [BitVec.extractLsb'_setWidth_of_le (by decide), BitVec.extractLsb'_setWidth_of_le (by decide)]
  exact ⟨BitVec.extractLsb'_append_eq_left, BitVec.extractLsb'_append_eq_right⟩

theorem beBytes_word (b₀ b₁ b₂ b₃ : Byte) : beBytes 4 (b₀ ++ b₁ ++ b₂ ++ b₃) = [b₀, b₁, b₂, b₃] := by
  have h := (beWord_word _ _ _ _).symm.trans (beWord_beBytes (b₀ ++ b₁ ++ b₂ ++ b₃))
  rw [bitVec_append_inj, bitVec_append_inj, bitVec_append_inj] at h
  simpa only [beBytes, List.cons.injEq, and_true, and_assoc] using h

theorem beWord_beBytes_byte (v : Word) : beWord (beBytes 1 v) = (v.setWidth 8).setWidth 32 :=
  (beWord_byte _).trans (congrArg (BitVec.setWidth 32) (BitVec.setWidth_eq_extractLsb' (by decide)).symm)

theorem beWord_beBytes_half (v : Word) : beWord (beBytes 2 v) = (v.setWidth 16).setWidth 32 := by
  refine (beWord_half _ _).trans (congrArg (BitVec.setWidth 32) ?_)
  rw [BitVec.setWidth_eq_extractLsb' (by decide)]
  exact BitVec.extractLsb'_append_extractLsb'_eq_extractLsb' (by decide)

end Sys2Proof
end

section
/-!
The words of the statements in terms of the model's own checks and reads: admitted bytes, bytes that hold values,
accesses that fit and accesses that are aligned.
-/

namespace Sys2Proof.Machine

open Sys2Proof.Claims

/-! ### Admitted bytes and bytes that hold values -/

theorem admitted_iff {s : State} {a n : Nat} : admitted s a n = true ↔ ∀ k, k < n → s.admits (a + k) = true := by
  simp [admitted]

theorem holdsBytes_iff {s : State} {a : Nat} {bs : List Byte} :
    holdsBytes s a bs = true ↔ ∀ j, j < bs.length → s.admits (a + j) = true ∧ s.byteAt (a + j) = bs[j]? := by
  induction bs generalizing a with
  | nil => simp [holdsBytes]
  | cons b bs ih =>
    simp only [holdsBytes, Bool.and_eq_true, beq_iff_eq, ih]
    constructor
    · rintro ⟨⟨hadm, hb⟩, h⟩ j hj
      cases j with
      | zero => exact ⟨hadm, hb⟩
      | succ j => simpa [Nat.add_assoc, Nat.add_comm 1] using h j (by simpa using hj)
    · intro h
      refine ⟨h 0 (by simp), fun j hj => ?_⟩
      simpa [Nat.add_assoc, Nat.add_comm 1] using h (j + 1) (by simpa using hj)

/-- An item reads as the bytes that stand there (20_memory.md R21). -/
theorem State.readItem_eq_ok_iff {s : State} {a n : Nat} {bs : List Byte} :
    s.readItem a n = .ok bs ↔ bs.length = n ∧ holdsBytes s a bs = true := by
  rw [State.readItem_ok, holdsBytes_iff]
  exact and_congr_right fun hl => by rw [hl]

/-- A block of items reads as the bytes that stand there. -/
theorem State.readItems_of_holdsBytes {s : State} {a g c : Nat} {bs : List Byte} (hl : bs.length = c * g)
    (h : holdsBytes s a bs = true) : s.readItems a g c = .ok bs :=
  State.readItems_ok.2 ⟨hl, hl ▸ holdsBytes_iff.1 h⟩

/-- An item with a byte that is not admitted is a DSI (60_exceptions.md R110, R116). -/
theorem State.readItem_of_not_admitted {s : State} {a n : Nat} (h : admitted s a n = false) :
    s.readItem a n = .error (.dsi (BitVec.ofNat 32 a)) := by
  refine State.readItem_error.2 (.inl ⟨?_, rfl⟩)
  simpa [admitted] using h

/-- An admitted item reports its first byte without a value (60_exceptions.md R114, R116). -/
theorem State.readItem_of_firstValueless {s : State} {a n k : Nat} (h : firstValueless s a n k = true) :
    s.readItem a n = .error (.unwrittenMemory (BitVec.ofNat 32 (a + k))) := by
  simp only [firstValueless, Bool.and_eq_true, decide_eq_true_eq, List.all_eq_true, List.mem_range,
    Option.isNone_iff_eq_none] at h
  obtain ⟨⟨⟨hk, hadm⟩, hbefore⟩, hnone⟩ := h
  exact State.readItem_error.2 (.inr ⟨admitted_iff.1 hadm, k, hk, hbefore, hnone, rfl⟩)

theorem ofNat_toNat_add (a : Word) (k : Nat) : BitVec.ofNat 32 (a.toNat + k) = a + BitVec.ofNat 32 k := by
  rw [BitVec.ofNat_add, BitVec.ofNat_toNat, BitVec.setWidth_eq]

/-! ### The checks of an access -/

theorem pastTop_eq_not_fits (ea : Word) (n : Nat) : pastTop ea n = !fits ea n := by
  simp [pastTop, fits, ← decide_not]

theorem fits_one (ea : Word) : fits ea 1 = true := decide_eq_true (Nat.succ_le_of_lt ea.isLt)

/-- The policies are two, so an access that is not performed misaligned raises (20_memory.md R23). -/
theorem State.misaligned_eq {s : State} {ea : Word} {n : Nat} (hn : 0 < n) :
    s.misaligned ea n = !alignedOrPerformed s ea n := by
  rw [State.misaligned, alignedOrPerformed]
  by_cases hone : n = 1
  · simp [hone, Nat.mod_one]
  · have hlt : 1 < n := by omega
    cases s.platform.misalignedPolicy <;> simp [hlt]

theorem alignedOrPerformed_one (s : State) (ea : Word) : alignedOrPerformed s ea 1 = true := by
  simp [alignedOrPerformed, Nat.mod_one]

end Sys2Proof.Machine
end

section
/-!
The step: what it does with the four bytes at the pc, and where a run ends (20_memory.md R32; 60_exceptions.md R112 to
R118; 70_reset_and_hazards.md R125, R127).
-/

namespace Sys2Proof.Machine

open Sys2Proof.Claims

/-! ### A step by what is issued -/

theorem step_of_run {s : State} {i : Instr} (h : s.issue = .run i) : step s = exec i s := by rw [step, h]

theorem step_of_refuse {s : State} {r : Refusal} (h : s.issue = .refuse r) : step s = .refused r := by rw [step, h]

theorem step_of_raise {s : State} {f : Fault} (h : s.issue = .raise f) : step s = .next (s.raise f) := by rw [step, h]

theorem step_of_halted {s : State} {f : Fault} (h : s.issue = .halted f) : step s = .fault f := by rw [step, h]

theorem step_of_final {s : State} (h : s.issue = .final) : step s = .next s := by rw [step, h]

/-! ### What is issued -/

theorem State.issue_of_fault {s : State} {f : Raised} (h : s.fault = some f) : s.issue = .halted f.reason := by
  rw [State.issue, h]

theorem State.issue_of_refused {s : State} {r : Refused} (hf : s.fault = none) (h : s.refused = some r) :
    s.issue = .refuse r.reason := by
  rw [State.issue, hf, h]

/-- A run that has not ended, in the order of 60_exceptions.md R116. -/
theorem State.issue_of_not_ended {s : State} (hf : s.fault = none) (hr : s.refused = none) :
    s.issue = if s.platform.byteOrder = .little then .refuse .littleEndianMode
      else if s.pc.toNat % 4 ≠ 0 then .refuse .misalignedLaunchPc
      else if s.isFinal then .final else s.fetch := by
  rw [State.issue, hf, hr]

theorem State.isFinal_not_ended {s : State} (h : s.isFinal = true) : s.fault = none ∧ s.refused = none := by
  simp only [State.isFinal, Bool.and_eq_true, Option.isNone_iff_eq_none] at h
  exact ⟨h.1.2, h.2⟩

theorem State.issue_of_fetches {s : State} (h : fetches s = true) : s.issue = s.fetch := by
  simp only [fetches, State.running, Bool.and_eq_true, Option.isNone_iff_eq_none, Bool.not_eq_true',
    decide_eq_true_eq] at h
  obtain ⟨⟨⟨⟨hf, hr⟩, hfinal⟩, horder⟩, hpc⟩ := h
  rw [State.issue_of_not_ended hf hr, horder, hfinal]
  simp [hpc]

/-- An instruction is issued only in a run that has not ended, by the fetch. -/
theorem State.issue_run {s : State} {i : Instr} (h : s.issue = .run i) : s.fault = none ∧ s.fetch = .run i := by
  cases hf : s.fault with
  | some f => rw [State.issue_of_fault hf] at h; cases h
  | none =>
    cases hr : s.refused with
    | some r => rw [State.issue_of_refused hf hr] at h; cases h
    | none =>
      rw [State.issue_of_not_ended hf hr] at h
      split at h
      · cases h
      · split at h
        · cases h
        · split at h
          · cases h
          · exact ⟨rfl, h⟩

/-! ### The fetch -/

theorem codeClean_eq_not_codeDirty (s : State) : codeClean s = !s.codeDirty := by
  rw [codeClean, State.codeDirty, List.not_any_eq_all_not]

theorem State.codeDirty_of_clean {s : State} (h : codeClean s = true) : s.codeDirty = false := by
  simpa [codeClean_eq_not_codeDirty] using h

theorem State.fetch_of_dirty {s : State} (h : s.codeDirty = true) : s.fetch = .refuse (.fetchOfModifiedCode s.pc) :=
  if_pos h

theorem State.fetch_error {s : State} {f : Fault} (hc : s.codeDirty = false)
    (h : s.readItem s.pc.toNat 4 = .error f) : s.fetch = .raise (s.fetchException f) := by
  simp [State.fetch, hc, h]

theorem State.fetch_decoded {s : State} {bs : List Byte} {i : Instr} (hc : s.codeDirty = false)
    (h : s.readItem s.pc.toNat 4 = .ok bs) (hd : decode bs = .ok i) : s.fetch = .run i := by
  simp [State.fetch, hc, h, hd]

theorem State.fetch_undecodable {s : State} {bs : List Byte} {e : DecodeError} (hc : s.codeDirty = false)
    (h : s.readItem s.pc.toNat 4 = .ok bs) (hd : decode bs = .error e) : s.fetch = .refuse (decodeRefusal e) := by
  simp [State.fetch, hc, h, hd]

/-- A fetch that issues an instruction has read four clean bytes that decode to it. -/
theorem State.fetch_run {s : State} {i : Instr} (h : s.fetch = .run i) :
    s.codeDirty = false ∧ ∃ bs, s.readItem s.pc.toNat 4 = .ok bs ∧ decode bs = .ok i := by
  cases hc : s.codeDirty with
  | true => rw [State.fetch_of_dirty hc] at h; cases h
  | false =>
    cases hb : s.readItem s.pc.toNat 4 with
    | error f => rw [State.fetch_error hc hb] at h; cases h
    | ok bs =>
      cases hd : decode bs with
      | error e => rw [State.fetch_undecodable hc hb hd] at h; cases h
      | ok j => rw [State.fetch_decoded hc hb hd] at h; cases h; exact ⟨rfl, bs, rfl, hd⟩

/-! ### What a step does with the bytes at the pc -/

/-- Settles O7: the fetch reads the four bytes and issues what they decode to. -/
theorem stepRunsTheDecodedInstruction : Obligations.StepRunsTheDecodedInstruction := by
  intro s bs i hf hc hl hb hd
  exact step_of_run ((s.issue_of_fetches hf).trans
    (State.fetch_decoded (State.codeDirty_of_clean hc) (State.readItem_eq_ok_iff.2 ⟨hl, hb⟩) hd))

/-- Settles O8: the dirty marks are tested before anything is read. -/
theorem fetchOfAStoredByteIsRefused : Obligations.FetchOfAStoredByteIsRefused := by
  intro s hf hc
  exact step_of_refuse ((s.issue_of_fetches hf).trans
    (State.fetch_of_dirty (by simpa [codeClean_eq_not_codeDirty] using hc)))

/-- Settles O9: the fetch reads one item of four bytes, and a DSI of it is the FetchFault of the pc. -/
theorem fetchRaises : Obligations.FetchRaises := by
  intro s hf hc
  have raises (f : Fault) (h : s.readItem s.pc.toNat 4 = .error f) :
      step s = .next (s.raise (s.fetchException f)) :=
    step_of_raise ((s.issue_of_fetches hf).trans (State.fetch_error (State.codeDirty_of_clean hc) h))
  constructor
  · exact fun hadm => raises _ (State.readItem_of_not_admitted hadm)
  · intro k hk
    rw [← ofNat_toNat_add]
    exact raises _ (State.readItem_of_firstValueless hk)

/-- Settles O10: the refusal carries the decoder's reason. -/
theorem undecodableWordIsRefused : Obligations.UndecodableWordIsRefused := by
  intro s bs hf hc hl hb
  have refuses (e : DecodeError) (hd : decode bs = .error e) : step s = .refused (decodeRefusal e) :=
    step_of_refuse ((s.issue_of_fetches hf).trans
      (State.fetch_undecodable (State.codeDirty_of_clean hc) (State.readItem_eq_ok_iff.2 ⟨hl, hb⟩) hd))
  exact ⟨fun w => refuses (.notInScope w), fun row => refuses (.invalidForm row)⟩

/-! ### Where a run ends -/

/-- A refusal is recorded with the pc and nothing else changes (60_exceptions.md R118). -/
theorem State.settle_refused {s : State} {r : Refusal} (hr : s.refused = none) :
    s.settle (.refused r) = s.recordRefusal r := by
  simp [State.settle, hr]

/-- Settles O11: a recorded fault, then a recorded refusal, is what is issued; and a refused step records its own. -/
theorem endedRunsStayEnded : Obligations.EndedRunsStayEnded := by
  intro s
  refine ⟨fun f hf => ?fault, fun r hf hr => ?refusal, fun r hf hr hstep => ?recorded⟩
  case fault =>
    refine ⟨step_of_halted (State.issue_of_fault hf), Bool.eq_false_iff.2 fun hfinal => ?_⟩
    rw [(State.isFinal_not_ended hfinal).1] at hf
    cases hf
  case refusal =>
    refine ⟨step_of_refuse (State.issue_of_refused hf hr), Bool.eq_false_iff.2 fun hfinal => ?_⟩
    rw [(State.isFinal_not_ended hfinal).2] at hr
    cases hr
  case recorded =>
    rw [hstep, State.settle_refused hr]
    exact ⟨s.recordRefusal_refused r, step_of_refuse
      (State.issue_of_refused (s := s.recordRefusal r) hf (s.recordRefusal_refused r))⟩

/-- Settles O12: a final state is found before the fetch. -/
theorem finalStateFetchesNothing : Obligations.FinalStateFetchesNothing := by
  intro s horder hpc hfinal
  obtain ⟨hf, hr⟩ := State.isFinal_not_ended hfinal
  refine step_of_final ?_
  rw [State.issue_of_not_ended hf hr, horder, hfinal]
  simp [hpc]

/-! ### Launches -/

/-- Settles O13: a launch has not ended, so its byte order and then its pc are tested. -/
theorem launchesOutsideTheModelAreRefused : Obligations.LaunchesOutsideTheModelAreRefused := by
  intro p pc0 gpr0 xer mem0
  have hissue := State.issue_of_not_ended (s := .launch p pc0 gpr0 xer mem0) rfl rfl
  constructor
  · intro horder
    exact step_of_refuse (hissue.trans (if_pos horder))
  · intro horder hpc
    have hbig : ¬ p.byteOrder = .little := by rw [horder]; decide
    exact step_of_refuse (hissue.trans ((if_neg hbig).trans (if_pos hpc)))

/-- Settles O14: each field of a launch is its parameter, and reset is a launch. -/
theorem launchStateIsTheRecord : Obligations.LaunchStateIsTheRecord :=
  ⟨fun _ _ _ _ _ => ⟨rfl, rfl, rfl, rfl, rfl, rfl, rfl, rfl⟩, ⟨_, _, _, _, rfl⟩, fun _ => rfl, rfl⟩

/-- A launch with an aligned pc and canonical, admitted memory meets the invariant: nothing is dirty, no fault is
recorded. -/
theorem State.launch_inv {p : Platform} {pc0 : Word} {gpr0 : Vector Word 32} {xer : BitVec 7} {mem0 : Memory}
    (hpc : pc0.toNat % 4 = 0) (hwf : Memory.wf mem0 = true)
    (hadm : ∀ c ∈ mem0, p.memAdmit.any (·.covers c.1) = true) : (State.launch p pc0 gpr0 xer mem0).Inv :=
  ⟨hwf, rfl, hadm, by simp [State.launch], hpc, by simp [State.launch]⟩

/-- Settles O47: reset is a launch whose memory lists nothing. -/
theorem launchMeetsTheInvariant : Obligations.LaunchMeetsTheInvariant :=
  ⟨State.launch_inv (by decide) rfl (by simp), fun _ _ _ _ _ => State.launch_inv⟩

end Sys2Proof.Machine
end

section
/-!
What every step keeps, each proved from the five effects of `exec_effect` (Sys2Proof/Laws/Effects.lean): the invariant,
the dirty marks of every changed byte, the control fields, the pc, and so the code that a run executes.
-/

namespace Sys2Proof.Machine

open Sys2Proof.Claims

/-! ### The invariant through the operations -/

theorem State.Inv.raise {s : State} (h : s.Inv) (f : Fault) : (s.raise f).Inv := by
  obtain ⟨hwf, hrising, hadm, hdirty, hpc, -⟩ := h
  exact ⟨hwf, hrising, hadm, hdirty, hpc, by simp⟩

/-- The pc moves on from no fault's. -/
theorem State.Inv.advance {s : State} (h : s.Inv) (hf : s.fault = none) : s.advance.Inv := by
  obtain ⟨hwf, hrising, hadm, hdirty, hpc, -⟩ := h
  refine ⟨hwf, hrising, hadm, hdirty, ?_, by simp [hf]⟩
  have hfour : (4 : Word).toNat = 4 := rfl
  rw [State.advance_pc, BitVec.toNat_add, hfour]
  omega

/-- Registers and draws stand in no clause of the invariant. -/
theorem State.Inv.withRegisters {s u : State} (h : s.Inv) (hu : u = { s with gpr := u.gpr, draws := u.draws }) :
    u.Inv := by
  rw [hu]; exact h

/-- A store keeps the canonical forms and the marks where its bytes are admitted and inside the address space. -/
theorem State.Inv.storeBytes {s : State} {a : Nat} {bs : List Byte} (h : s.Inv) (hfit : a + bs.length ≤ addressSpace)
    (hadmits : ∀ j, j < bs.length → s.admits (a + j) = true) : (s.storeBytes a bs).Inv := by
  obtain ⟨hwf, hrising, hadm, hdirty, hpc, hfault⟩ := h
  refine ⟨State.storeBytes_wf hwf hfit, State.storeBytes_rising hrising, fun c hc => ?cells, fun x hx => ?marks,
    by simpa using hpc, by simpa using hfault⟩
  case cells =>
    rw [State.admits_storeBytes]
    rcases State.mem_storeBytes hc with hc | ⟨hlo, hhi⟩
    · exact hadm c hc
    · simpa [Nat.add_sub_cancel' hlo] using hadmits (c.1 - a) (by omega)
  case marks =>
    rw [State.byteAt_storeBytes]
    split
    · next hx => rw [List.getElem?_eq_getElem (by omega)]; rfl
    · next hout =>
      exact hdirty x (((State.dirty_storeBytes s a x bs).1 hx).resolve_right hout)

theorem State.admits_drawBytes (s : State) (a c : Nat) (bs : List Byte) (x : Nat) :
    (s.drawBytes a c bs).admits x = s.admits x := by
  simp [State.admits]

/-- A store stopped part-way keeps them too: what it stored is admitted. -/
theorem State.Inv.drawBytes {s : State} {a c : Nat} {bs : List Byte} (h : s.Inv)
    (hfit : a + bs.length ≤ addressSpace) : (s.drawBytes a c bs).Inv := by
  obtain ⟨hwf, hrising, hadm, hdirty, hpc, hfault⟩ := h
  refine ⟨State.drawBytes_wf hwf hfit, State.drawBytes_rising hrising, fun d hd => ?cells,
    State.drawBytes_dirty_holds hdirty, by simpa using hpc, by simpa using hfault⟩
  case cells =>
    rw [State.admits_drawBytes]
    rcases State.mem_drawBytes hd with hd | ⟨-, -, hd⟩
    · exact hadm d hd
    · exact hd

/-- Each of the five effects keeps the invariant of a run that has not ended. -/
theorem State.Inv.effect {s t : State} (h : s.Inv) (hf : s.fault = none) (he : Effect s t) : t.Inv := by
  cases he with
  | loaded u hu ht =>
    exact ht ▸ (h.withRegisters hu).advance (by rw [hu]; exact hf)
  | raised f ht => exact ht ▸ h.raise f
  | stored ea bs u hu hfit hadm ht =>
    exact ht ▸ ((h.storeBytes hfit hadm).withRegisters hu).advance (by rw [hu]; simpa using hf)
  | loadStopped u hu f ht => exact ht ▸ (h.withRegisters hu).raise f
  | storeStopped ea bs c f hfit ht =>
    exact ht ▸ ((h.drawBytes hfit).withRegisters rfl).raise f

/-- Settles O48, along what a step can have done: nothing, a raise of the fetch, or an instruction's effect. -/
theorem stepKeepsTheInvariant : Obligations.StepKeepsTheInvariant := by
  intro s t hinv hstep
  rcases step_next hstep with ⟨-, rfl⟩ | ⟨f, -, rfl⟩ | ⟨i, hi, hexec⟩
  · exact hinv
  · exact hinv.raise f
  · exact hinv.effect (State.issue_run hi).1 (exec_effect hexec)

/-! ### Every changed byte is marked -/

/-- From `s` to `t` marks stay, unmarked bytes are as before, and a new mark stands at an admitted byte that holds a
value (20_memory.md R22). -/
def MarksChanges (s t : State) : Prop :=
  (∀ a, a ∈ s.dirtyCode → a ∈ t.dirtyCode) ∧
  (∀ a, a ∉ t.dirtyCode → t.byteAt a = s.byteAt a) ∧
  (∀ a, a ∈ t.dirtyCode → a ∈ s.dirtyCode ∨ (s.admits a = true ∧ (t.byteAt a).isSome = true))

theorem marksChanges_of_memory_eq {s t : State} (hm : t.mem = s.mem) (hd : t.dirtyCode = s.dirtyCode) :
    MarksChanges s t := by
  refine ⟨fun a ha => hd ▸ ha, fun a _ => ?_, fun a ha => .inl (hd ▸ ha)⟩
  rw [State.byteAt, State.byteAt, hm]

theorem marksChanges_storeBytes {s : State} {a : Nat} {bs : List Byte}
    (hadm : ∀ j, j < bs.length → s.admits (a + j) = true) : MarksChanges s (s.storeBytes a bs) := by
  refine ⟨fun x hx => ?stay, fun x hx => ?unmarked, fun x hx => ?new⟩
  case stay => exact (State.dirty_storeBytes s a x bs).2 (.inl hx)
  case unmarked =>
    rw [State.dirty_storeBytes, not_or] at hx
    rw [State.byteAt_storeBytes, if_neg hx.2]
  case new =>
    rcases (State.dirty_storeBytes s a x bs).1 hx with hx | hx
    · exact .inl hx
    · refine .inr ⟨by simpa [Nat.add_sub_cancel' hx.1] using hadm (x - a) (by omega), ?_⟩
      rw [State.byteAt_storeBytes, if_pos hx, List.getElem?_eq_getElem (by omega)]
      rfl

/-- A byte that holds a value holds one after a store stopped part-way, the old or the new. -/
theorem State.byteAt_drawBytes_isSome {s : State} {a c x : Nat} {bs : List Byte} (h : (s.byteAt x).isSome = true) :
    ((s.drawBytes a c bs).byteAt x).isSome = true := by
  rcases State.byteAt_drawBytes s a c x bs with hold | ⟨hlo, hhi, -, hnew⟩
  · rwa [hold]
  · rw [hnew, List.getElem?_eq_getElem (by omega)]; rfl

theorem State.drawBytes_mark_holds {s : State} {a c x : Nat} {bs : List Byte}
    (h : x ∈ (s.drawBytes a c bs).dirtyCode) :
    x ∈ s.dirtyCode ∨ ((s.drawBytes a c bs).byteAt x).isSome = true := by
  induction bs generalizing s a c with
  | nil => exact .inl h
  | cons b bs ih =>
    rw [State.drawBytes] at h ⊢
    rcases ih h with hmark | hholds
    · split at hmark
      · next hdraw =>
        rcases (State.dirty_storeByte s a x b).1 hmark with rfl | hmark
        · exact .inr (State.byteAt_drawBytes_isSome (by rw [if_pos hdraw, State.byteAt_storeByte, if_pos rfl]; rfl))
        · exact .inl hmark
      · exact .inl hmark
    · exact .inr hholds

theorem marksChanges_drawBytes (s : State) (a c : Nat) (bs : List Byte) : MarksChanges s (s.drawBytes a c bs) := by
  refine ⟨fun x => State.dirty_drawBytes_mono, fun x => State.drawBytes_byteAt_of_not_dirty, fun x hx => ?_⟩
  rcases State.dirty_drawBytes hx with hold | ⟨-, -, hadm⟩
  · exact .inl hold
  · exact (State.drawBytes_mark_holds hx).imp_right fun hholds => ⟨hadm, hholds⟩

/-- Only the two effects that store touch memory or the marks. -/
theorem marksChanges_effect {s t : State} (he : Effect s t) : MarksChanges s t := by
  cases he with
  | loaded u hu ht => subst ht; rw [hu]; exact marksChanges_of_memory_eq rfl rfl
  | raised f ht => subst ht; exact marksChanges_of_memory_eq rfl rfl
  | stored ea bs u hu hfit hadm ht => subst ht; rw [hu]; exact marksChanges_storeBytes hadm
  | loadStopped u hu f ht => subst ht; rw [hu]; exact marksChanges_of_memory_eq rfl rfl
  | storeStopped ea bs c f hfit ht => subst ht; exact marksChanges_drawBytes s ea.toNat s.draws bs

/-- Settles O49: a final state and a raise of the fetch leave memory and the marks, an instruction marks its changes. -/
theorem memoryChangesOnlyAtDirtyAddresses : Obligations.MemoryChangesOnlyAtDirtyAddresses := by
  intro s t hstep
  rcases step_next hstep with ⟨-, rfl⟩ | ⟨f, -, rfl⟩ | ⟨i, -, hexec⟩
  · exact marksChanges_of_memory_eq rfl rfl
  · exact marksChanges_of_memory_eq rfl rfl
  · exact marksChanges_effect (exec_effect hexec)

/-! ### Control fields and the pc -/

theorem sameControl_effect {s t : State} (he : Effect s t) : sameControl s t := by
  cases he with
  | loaded u hu ht => subst ht; rw [hu]; exact ⟨rfl, rfl, rfl⟩
  | raised f ht => subst ht; exact ⟨rfl, rfl, rfl⟩
  | stored ea bs u hu hfit hadm ht => subst ht; rw [hu]; simp [sameControl]
  | loadStopped u hu f ht => subst ht; rw [hu]; exact ⟨rfl, rfl, rfl⟩
  | storeStopped ea bs c f hfit ht => subst ht; simp [sameControl]

/-- Settles O45, along what a step can have done. -/
theorem stepKeepsXerAndParameters : Obligations.StepKeepsXerAndParameters := by
  intro s t hstep
  rcases step_next hstep with ⟨-, rfl⟩ | ⟨f, -, rfl⟩ | ⟨i, -, hexec⟩
  · exact ⟨rfl, rfl, rfl⟩
  · exact ⟨rfl, rfl, rfl⟩
  · exact sameControl_effect (exec_effect hexec)

/-- Settles O46: two of the five effects complete, the other three raise. -/
theorem pcAdvancesByFourOrTheFaultIsRecorded : Obligations.PcAdvancesByFourOrTheFaultIsRecorded := by
  intro s t i hexec
  cases exec_effect hexec with
  | loaded u hu ht => subst ht; rw [hu]; exact .inl ⟨rfl, rfl⟩
  | raised f ht => subst ht; exact .inr ⟨rfl, f, rfl⟩
  | stored ea bs u hu hfit hadm ht => subst ht; rw [hu]; exact .inl (by simp)
  | loadStopped u hu f ht => subst ht; rw [hu]; exact .inr ⟨rfl, f, rfl⟩
  | storeStopped ea bs c f hfit ht => subst ht; exact .inr (by simp)

/-! ### The code a run executes -/

theorem run_succ_next {M : Host.Core} {k : Nat} {s t : M.State} (h : M.run (k + 1) s = .next t) :
    ∃ s', M.step s = .next s' ∧ M.run k s' = .next t := by
  rw [Host.Core.run] at h
  split at h
  · next s' hstep => exact ⟨s', hstep, h⟩
  · cases h
  · cases h

/-- Along a run marks stay and unmarked bytes are as at its start: the step's claim, taken `k` times. -/
theorem run_marksChanges {k : Nat} {s t : State} (h : Host.Core.run core k s = .next t) :
    (∀ a, a ∈ s.dirtyCode → a ∈ t.dirtyCode) ∧ (∀ a, a ∉ t.dirtyCode → t.byteAt a = s.byteAt a) := by
  induction k generalizing s with
  | zero => cases h; exact ⟨fun _ => id, fun _ _ => rfl⟩
  | succ k ih =>
    obtain ⟨s', hstep, hrest⟩ := run_succ_next h
    obtain ⟨hstay, hunmarked, -⟩ := memoryChangesOnlyAtDirtyAddresses s s' hstep
    obtain ⟨ihstay, ihunmarked⟩ := ih hrest
    exact ⟨fun a ha => ihstay a (hstay a ha), fun a ha =>
      (ihunmarked a ha).trans (hunmarked a fun hs' => ha (ihstay a hs'))⟩

theorem State.not_dirty_of_codeDirty {s : State} (h : s.codeDirty = false) {j : Nat} (hj : j < 4) :
    s.pc.toNat + j ∉ s.dirtyCode := by
  simp only [State.codeDirty, List.any_eq_false, List.mem_range, List.contains_eq_mem, decide_eq_true_eq] at h
  exact h j hj

/-- Settles O50: what is about to execute was fetched from unmarked bytes, and those are as at the start. -/
theorem runsExecuteOnlyLaunchCode : Obligations.RunsExecuteOnlyLaunchCode := by
  intro k s t i _ hrun hissue
  obtain ⟨hclean, bs, hread, hdecode⟩ := State.fetch_run (State.issue_run hissue).2
  obtain ⟨hl, hbytes⟩ := State.readItem_ok.1 hread
  refine ⟨bs, hl, hdecode, fun j hj => ⟨?_, (hbytes j hj).2⟩⟩
  rw [← (run_marksChanges hrun).2 _ (State.not_dirty_of_codeDirty hclean hj), (hbytes j hj).2]

end Sys2Proof.Machine
end

section
/-!
Effective addresses as sums modulo 2^32 of integers, the immediate index a signed number (40_address_generation.md
R47 to R50).
-/

namespace Sys2Proof.Machine

/-- A word plus a sign-extended immediate, as an integer sum (R47, R49). -/
theorem toNat_add_displacement (a : Word) (d : BitVec 16) :
    ((a + displacement d).toNat : Int) = (a.toNat + d.toInt) % 4294967296 := by
  have hd : (displacement d).toInt = d.toInt := BitVec.toInt_signExtend_of_le (by decide)
  rw [← hd, BitVec.toNat_add, BitVec.toInt_eq_toNat_cond]
  split <;> omega

/-- Settles O16: two shapes of sum, each over the base or over the register itself. -/
theorem effectiveAddressIsTheSumModulo : Obligations.EffectiveAddressIsTheSumModulo := by
  intro s rA rB d
  exact ⟨toNat_add_displacement _ d, BitVec.toNat_add _ _, rfl, toNat_add_displacement _ d, BitVec.toNat_add _ _⟩

end Sys2Proof.Machine
end

section
/-!
Single-item loads: where one completes and with what value, where one raises, and what one leaves alone
(41_integer_load.md R51 to R68; 43_byte_reverse.md R86, R87; 60_exceptions.md R110 to R116).
-/

namespace Sys2Proof.Machine

open Sys2Proof.Claims

/-! ### The read of one item -/

theorem State.memRead_of_misaligned {s : State} {ea : Word} {n : Nat} (hn : 0 < n)
    (ha : alignedOrPerformed s ea n = false) : s.memRead ea n = .error (.alignment ea) := by
  rw [State.memRead, State.misaligned_eq hn, ha]; rfl

theorem State.memRead_of_aligned {s : State} {ea : Word} {n : Nat} {f : Fault} (hn : 0 < n)
    (ha : alignedOrPerformed s ea n = true) (h : s.readItem ea.toNat n = .error f) : s.memRead ea n = .error f := by
  rw [State.memRead, State.misaligned_eq hn, ha, h]; rfl

theorem State.memRead_of_holdsBytes {s : State} {ea : Word} {n : Nat} {bs : List Byte} (hn : 0 < n)
    (ha : alignedOrPerformed s ea n = true) (hl : bs.length = n) (h : holdsBytes s ea.toNat bs = true) :
    s.memRead ea n = .ok (beWord bs) := by
  rw [State.memRead, State.misaligned_eq hn, ha, State.readItem_eq_ok_iff.2 ⟨hl, h⟩]; rfl

/-! ### The answers of a load -/

theorem State.withItem_wraps {s : State} {ea : Word} {n : Nat} (k : Word → State) (hf : fits ea n = false) :
    s.withItem ea n k = .refused (.addressWrap ea n) := by
  rw [State.withItem, pastTop_eq_not_fits, hf]; rfl

theorem State.withItem_completes {s : State} {ea v : Word} {n : Nat} (k : Word → State) (hf : fits ea n = true)
    (h : s.memRead ea n = .ok v) : s.withItem ea n k = .next (k v).advance := by
  rw [State.withItem, pastTop_eq_not_fits, hf, h]; rfl

theorem State.withItem_raises {s : State} {ea : Word} {n : Nat} {f : Fault} (k : Word → State) (hf : fits ea n = true)
    (h : s.memRead ea n = .error f) : s.withItem ea n k = .next (s.raise f) := by
  rw [State.withItem, pastTop_eq_not_fits, hf, h]; rfl

/-! ### Completion -/

/-- A load of the item `bs` puts its value, extended by `conv`, into rD (R51); a valid load with update also puts the EA
into rA (R52). -/
theorem State.loads_complete {s : State} {n : Nat} {bs : List Byte} {conv : Word → Word} {v : Word} (rD rA : Reg)
    (hn : 0 < n) (hl : bs.length = n) (hv : conv (beWord bs) = v) (ea : Word) :
    (fits ea n = true → alignedOrPerformed s ea n = true → holdsBytes s ea.toNat bs = true →
      s.loadItem ea n conv rD = .next (loaded s rD v)) ∧
    (rA ≠ 0 → rA ≠ rD → fits ea n = true → alignedOrPerformed s ea n = true → holdsBytes s ea.toNat bs = true →
      unlessLoadUpdateInvalid rD rA (s.loadItemUpdate ea n conv rD rA) = .next (loadedUpdate s rD v rA ea)) := by
  subst hv
  constructor
  · exact fun hf ha h => State.withItem_completes _ hf (State.memRead_of_holdsBytes hn ha hl h)
  · intro h0 hD hf ha h
    rw [unlessLoadUpdateInvalid_of_valid h0 hD]
    exact State.withItem_completes _ hf (State.memRead_of_holdsBytes hn ha hl h)

/-- Settles O17: one byte is always inside the address space and aligned. -/
theorem byteLoadsComplete : Obligations.ByteLoadsComplete := by
  intro s rD rA rB d b
  have loads := State.loads_complete (s := s) (conv := zeroExtended) rD rA Nat.one_pos rfl (beWord_byte b)
  have plain (ea : Word) := (loads ea).1 (fits_one ea) (alignedOrPerformed_one s ea)
  have update (ea : Word) (h0 : rA ≠ 0) (hD : rA ≠ rD) :=
    (loads ea).2 h0 hD (fits_one ea) (alignedOrPerformed_one s ea)
  exact ⟨plain _, plain _, update _, update _⟩

/-- Settles O18: the four differ in their EA and in the update alone. -/
theorem halfWordLoadsComplete : Obligations.HalfWordLoadsComplete := by
  intro s rD rA rB d b₀ b₁
  have loads := State.loads_complete (s := s) (conv := zeroExtended) rD rA Nat.two_pos rfl (beWord_half b₀ b₁)
  exact ⟨fun ea hea => hea ▸ (loads _).1, fun ea hea => hea ▸ (loads _).1, fun ea hea => hea ▸ (loads _).2,
    fun ea hea => hea ▸ (loads _).2⟩

/-- The item read is the half word, and its sign is bit 15 (41_integer_load.md R61). -/
theorem halfAlgebraic_beWord (b₀ b₁ : Byte) : halfAlgebraic (beWord [b₀, b₁]) = (b₀ ++ b₁).signExtend 32 := by
  rw [beWord_half, halfAlgebraic, BitVec.setWidth_setWidth_of_le _ (by decide), BitVec.setWidth_eq]

/-- Settles O19: the half-word loads with the other extension. -/
theorem algebraicLoadsComplete : Obligations.AlgebraicLoadsComplete := by
  intro s rD rA rB d b₀ b₁
  have loads := State.loads_complete (s := s) rD rA Nat.two_pos rfl (halfAlgebraic_beWord b₀ b₁)
  exact ⟨fun ea hea => hea ▸ (loads _).1, fun ea hea => hea ▸ (loads _).1, fun ea hea => hea ▸ (loads _).2,
    fun ea hea => hea ▸ (loads _).2⟩

/-- Settles O20: the item of four bytes is the word. -/
theorem wordLoadsComplete : Obligations.WordLoadsComplete := by
  intro s rD rA rB d b₀ b₁ b₂ b₃
  have loads :=
    State.loads_complete (s := s) (conv := zeroExtended) rD rA (Nat.succ_pos 3) rfl (beWord_word b₀ b₁ b₂ b₃)
  exact ⟨fun ea hea => hea ▸ (loads _).1, fun ea hea => hea ▸ (loads _).1, fun ea hea => hea ▸ (loads _).2,
    fun ea hea => hea ▸ (loads _).2⟩

theorem rev16_beWord (b₀ b₁ : Byte) : rev16 (beWord [b₀, b₁]) = (b₁ ++ b₀).setWidth 32 := by
  have h := beBytes_half b₀ b₁
  simp only [beBytes, List.cons.injEq, and_true] at h
  rw [beWord_half, rev16, h.1, h.2]

theorem rev32_beWord (b₀ b₁ b₂ b₃ : Byte) : rev32 (beWord [b₀, b₁, b₂, b₃]) = b₃ ++ b₂ ++ b₁ ++ b₀ := by
  have h := beBytes_word b₀ b₁ b₂ b₃
  simp only [beBytes, List.cons.injEq, and_true] at h
  obtain ⟨h₀, h₁, h₂, h₃⟩ := h
  rw [beWord_word, rev32, h₀, h₁, h₂, h₃]

/-- Settles O21: the reversal is the extension of these two loads. -/
theorem byteReverseLoadsComplete : Obligations.ByteReverseLoadsComplete := by
  intro s rD rA rB b₀ b₁ b₂ b₃
  exact ⟨(State.loads_complete rD rA Nat.two_pos rfl (rev16_beWord b₀ b₁) _).1,
    (State.loads_complete rD rA (Nat.succ_pos 3) rfl (rev32_beWord b₀ b₁ b₂ b₃) _).1⟩

/-! ### The 18 loads share one operation -/

theorem exec_plainLoad {s : State} {rD rA rB : Reg} {d : BitVec 16} {p : Instr × Word × Nat}
    (hp : p ∈ plainLoads s rD rA rB d) :
    0 < p.2.2 ∧ ∃ conv, exec p.1 s = s.loadItem p.2.1 p.2.2 conv rD := by
  simp only [plainLoads, List.mem_cons, List.not_mem_nil, or_false] at hp
  obtain rfl | rfl | rfl | rfl | rfl | rfl | rfl | rfl | rfl | rfl := hp <;> exact ⟨Nat.succ_pos _, _, rfl⟩

/-- What the fields of a valid load with update satisfy (30_encoding.md R42 row 1). -/
theorem updateLoad_valid {s : State} {rD rA rB : Reg} {d : BitVec 16} {p : Instr × Word × Nat}
    (hp : p ∈ updateLoads s rD rA rB d) (hwf : p.1.wellFormed = true) : 0 < p.2.2 ∧ rA ≠ 0 ∧ rA ≠ rD := by
  have hrow : 0 < p.2.2 ∧ p.1.invalidRow = if rA = 0 ∨ rA = rD then some .loadUpdate else none := by
    simp only [updateLoads, List.mem_cons, List.not_mem_nil, or_false] at hp
    obtain rfl | rfl | rfl | rfl | rfl | rfl | rfl | rfl := hp <;> exact ⟨Nat.succ_pos _, rfl⟩
  refine ⟨hrow.1, not_or.1 fun hinv => ?_⟩
  rw [Instr.wellFormed, hrow.2, if_pos hinv] at hwf
  cases hwf

/-- Each well-formed single-item load reads its item and then writes registers. -/
theorem exec_singleLoad {s : State} {rD rA rB : Reg} {d : BitVec 16} {p : Instr × Word × Nat}
    (hp : p ∈ plainLoads s rD rA rB d ++ updateLoads s rD rA rB d) (hwf : p.1.wellFormed = true) :
    0 < p.2.2 ∧ ∃ k, exec p.1 s = s.withItem p.2.1 p.2.2 k := by
  rcases List.mem_append.1 hp with hp | hp
  · obtain ⟨hn, conv, hexec⟩ := exec_plainLoad hp
    exact ⟨hn, _, hexec⟩
  · obtain ⟨conv, hexec⟩ := exec_updateLoad hp
    obtain ⟨hn, h0, hD⟩ := updateLoad_valid hp hwf
    exact ⟨hn, _, hexec.trans (unlessLoadUpdateInvalid_of_valid h0 hD _)⟩

/-- Settles O33: alignment is tested before the item is read, and the read reports DSI before UnwrittenMemory. -/
theorem singleLoadsRaise : Obligations.SingleLoadsRaise := by
  intro s rD rA rB d p hp hwf hf
  obtain ⟨hn, k, hexec⟩ := exec_singleLoad hp hwf
  have raises (f : Fault) (h : s.memRead p.2.1 p.2.2 = .error f) : exec p.1 s = .next (s.raise f) :=
    hexec.trans (State.withItem_raises k hf h)
  refine ⟨fun ha => ?misaligned, fun ha hadm => ?notAdmitted, fun j ha hj => ?valueless⟩
  case misaligned => exact raises _ (State.memRead_of_misaligned hn ha)
  case notAdmitted =>
    have hread := State.readItem_of_not_admitted hadm
    rw [BitVec.ofNat_toNat, BitVec.setWidth_eq] at hread
    exact raises _ (State.memRead_of_aligned hn ha hread)
  case valueless =>
    rw [← ofNat_toNat_add]
    exact raises _ (State.memRead_of_aligned hn ha (State.readItem_of_firstValueless hj))

/-! ### Frame -/

/-- Settles O41: a load that answers a next state wrote rD, and rA with update, or raised. -/
theorem singleLoadsFrame : Obligations.SingleLoadsFrame := by
  intro s t rD rA rB d
  constructor
  · intro p hp hnext
    obtain ⟨-, conv, hexec⟩ := exec_plainLoad hp
    rcases State.withItem_next (hexec ▸ hnext) with ⟨v, -, rfl⟩ | ⟨f, -, rfl⟩
    · exact ⟨fun q hq => s.reg_setReg_of_ne hq _, fun x => rfl, rfl⟩
    · exact ⟨fun q hq => rfl, fun x => rfl, rfl⟩
  · intro p hp hnext
    obtain ⟨conv, hexec⟩ := exec_updateLoad hp
    obtain ⟨-, -, hload⟩ := unlessLoadUpdateInvalid_next (hexec ▸ hnext)
    rcases State.withItem_next hload with ⟨v, -, rfl⟩ | ⟨f, -, rfl⟩
    · refine ⟨fun q hqD hqA => ?_, fun x => rfl, rfl⟩
      rw [State.reg_advance, State.reg_setReg_of_ne _ hqA, State.reg_setReg_of_ne _ hqD]
    · exact ⟨fun q _ _ => rfl, fun x => rfl, rfl⟩

end Sys2Proof.Machine
end

section
/-!
Single-item stores: where one completes and with what bytes, where one raises, and what one leaves alone
(42_integer_store.md R70 to R84; 43_byte_reverse.md R88, R89; 60_exceptions.md R110 to R116).
-/

namespace Sys2Proof.Machine

open Sys2Proof.Claims

/-! ### The check of a block's admission -/

theorem State.admissionFault_of_admitted {s : State} {a n : Nat} (g : Nat) (h : admitted s a n = true) :
    s.admissionFault a g 0 n = none :=
  State.admissionFault_none.2 fun j hj => admitted_iff.1 h j hj

/-- A block that is not admitted has a first byte that is not. -/
theorem firstUnadmitted_of_not_admitted {s : State} {a n : Nat} (h : admitted s a n = false) :
    ∃ k, firstUnadmitted s a n k = true := by
  induction n with
  | zero => simp [admitted] at h
  | succ n ih =>
    cases hn : admitted s a n with
    | false =>
      obtain ⟨k, hk⟩ := ih hn
      simp only [firstUnadmitted, Bool.and_eq_true, decide_eq_true_eq] at hk ⊢
      exact ⟨k, ⟨Nat.lt_succ_of_lt hk.1.1, hk.1.2⟩, hk.2⟩
    | true =>
      refine ⟨n, ?_⟩
      rw [admitted, List.range_succ, List.all_append, ← admitted, hn] at h
      simpa [firstUnadmitted, hn] using h

/-- The first byte that is not admitted decides the DSI, which names its item (60_exceptions.md R110). -/
theorem State.admissionFault_of_firstUnadmitted {s : State} {a n k : Nat} (g : Nat)
    (h : firstUnadmitted s a n k = true) : s.admissionFault a g 0 n = some (.dsi (itemAddr a g k)) := by
  simp only [firstUnadmitted, Bool.and_eq_true, decide_eq_true_eq, Bool.not_eq_true'] at h
  obtain ⟨⟨hk, hbefore⟩, hno⟩ := h
  exact State.admissionFault_some.2 ⟨k, hk, admitted_iff.1 hbefore, hno, by rw [Nat.zero_add]⟩

/-- A single item names its own address. -/
theorem State.admissionFault_single {s : State} {ea : Word} {n : Nat} (h : admitted s ea.toNat n = false) :
    s.admissionFault ea.toNat n 0 n = some (.dsi ea) := by
  obtain ⟨k, hk⟩ := firstUnadmitted_of_not_admitted h
  have hlt : k < n := by
    simp only [firstUnadmitted, Bool.and_eq_true, decide_eq_true_eq] at hk
    exact hk.1.1
  rw [State.admissionFault_of_firstUnadmitted n hk, itemAddr_single hlt]

/-! ### The answers of a store -/

theorem State.withStore_wraps {s : State} {ea : Word} {n : Nat} (v : Word) (k : State → State)
    (hf : fits ea n = false) : s.withStore ea n v k = .refused (.addressWrap ea n) := by
  rw [State.withStore, pastTop_eq_not_fits, hf]; rfl

theorem State.withStore_of_misaligned {s : State} {ea : Word} {n : Nat} (v : Word) (k : State → State) (hn : 0 < n)
    (hf : fits ea n = true) (ha : alignedOrPerformed s ea n = false) :
    s.withStore ea n v k = .next (s.raise (.alignment ea)) := by
  rw [State.withStore, pastTop_eq_not_fits, hf, State.misaligned_eq hn, ha]; rfl

theorem State.withStore_of_not_admitted {s : State} {ea : Word} {n : Nat} (v : Word) (k : State → State) (hn : 0 < n)
    (hf : fits ea n = true) (ha : alignedOrPerformed s ea n = true) (hadm : admitted s ea.toNat n = false) :
    s.withStore ea n v k = .next (s.raise (.dsi ea)) := by
  rw [State.withStore, pastTop_eq_not_fits, hf, State.misaligned_eq hn, ha, State.admissionFault_single hadm]; rfl

theorem State.withStore_completes {s : State} {ea : Word} {n : Nat} (v : Word) (k : State → State) (hn : 0 < n)
    (hf : fits ea n = true) (ha : alignedOrPerformed s ea n = true) (hadm : admitted s ea.toNat n = true) :
    s.withStore ea n v k = .next (k (s.storeBytes ea.toNat (beBytes n v))).advance := by
  rw [State.withStore, pastTop_eq_not_fits, hf, State.misaligned_eq hn, ha, State.admissionFault_of_admitted n hadm]
  rfl

/-! ### Completion -/

/-- Bytes stored, then the pc advanced (20_memory.md R22). -/
theorem storeCompletes_storeBytes (s : State) (a : Nat) (bs : List Byte) :
    storeCompletes s (s.storeBytes a bs).advance s.gpr a bs :=
  ⟨⟨fun x => State.byteAt_storeBytes s a x bs, fun x => State.dirty_storeBytes s a x bs⟩, by simp [sameControl]⟩

/-- A register written beside the store shows in the registers alone. -/
theorem storeCompletes_setReg {s u : State} {gpr : Vector Word 32} {a : Nat} {bs : List Byte}
    (h : storeCompletes s u.advance gpr a bs) (r : Reg) (v : Word) :
    storeCompletes s (u.setReg r v).advance (gpr.set r.toNat v) a bs := by
  obtain ⟨hstored, rfl, hrest⟩ := h
  exact ⟨hstored, rfl, hrest⟩

/-- A store of the low-order `n` bytes `bs` of `v` (R70); a valid store with update also puts the EA into rA (R71). -/
theorem State.stores_complete {s : State} {n : Nat} {v : Word} {bs : List Byte} (rA : Reg) (hn : 0 < n)
    (hv : beBytes n v = bs) (ea : Word) :
    (fits ea n = true → alignedOrPerformed s ea n = true → admitted s ea.toNat n = true →
      ∃ t, s.storeItem ea n v = .next t ∧ storeCompletes s t s.gpr ea.toNat bs) ∧
    (rA ≠ 0 → fits ea n = true → alignedOrPerformed s ea n = true → admitted s ea.toNat n = true →
      ∃ t, unlessStoreUpdateInvalid rA (s.storeItemUpdate ea n v rA) = .next t ∧
        storeCompletes s t (s.gpr.set rA.toNat ea) ea.toNat bs) := by
  subst hv
  constructor
  · intro hf ha hadm
    exact ⟨_, State.withStore_completes v _ hn hf ha hadm, storeCompletes_storeBytes s _ _⟩
  · intro h0 hf ha hadm
    rw [unlessStoreUpdateInvalid_of_valid h0]
    exact ⟨_, State.withStore_completes v _ hn hf ha hadm,
      storeCompletes_setReg (storeCompletes_storeBytes s _ _) rA ea⟩

/-- Settles O22: one byte is always inside the address space and aligned. -/
theorem byteStoresComplete : Obligations.ByteStoresComplete := by
  intro s rS rA rB d
  have stores := State.stores_complete (s := s) (n := 1) (v := s.reg rS) rA Nat.one_pos rfl
  have plain (ea : Word) := (stores ea).1 (fits_one ea) (alignedOrPerformed_one s ea)
  have update (ea : Word) (h0 : rA ≠ 0) := (stores ea).2 h0 (fits_one ea) (alignedOrPerformed_one s ea)
  exact ⟨plain _, plain _, update _, update _⟩

/-- Settles O23: the four differ in their EA and in the update alone. -/
theorem halfWordStoresComplete : Obligations.HalfWordStoresComplete := by
  intro s rS rA rB d
  have stores := State.stores_complete (s := s) (n := 2) (v := s.reg rS) (bs := halfBytes (s.reg rS)) rA Nat.two_pos rfl
  exact ⟨fun ea hea => hea ▸ (stores _).1, fun ea hea => hea ▸ (stores _).1, fun ea hea => hea ▸ (stores _).2,
    fun ea hea => hea ▸ (stores _).2⟩

/-- Settles O24: the same, of four bytes. -/
theorem wordStoresComplete : Obligations.WordStoresComplete := by
  intro s rS rA rB d
  have stores :=
    State.stores_complete (s := s) (n := 4) (v := s.reg rS) (bs := wordBytes (s.reg rS)) rA (Nat.succ_pos 3) rfl
  exact ⟨fun ea hea => hea ▸ (stores _).1, fun ea hea => hea ▸ (stores _).1, fun ea hea => hea ▸ (stores _).2,
    fun ea hea => hea ▸ (stores _).2⟩

theorem beBytes_rev16 (v : Word) : beBytes 2 (rev16 v) = (halfBytes v).reverse := beBytes_half _ _

theorem beBytes_rev32 (v : Word) : beBytes 4 (rev32 v) = (wordBytes v).reverse := beBytes_word _ _ _ _

/-- Settles O25: the reversed value's bytes are the value's in the opposite order. -/
theorem byteReverseStoresComplete : Obligations.ByteReverseStoresComplete := by
  intro s rS rA rB
  exact ⟨(State.stores_complete rA Nat.two_pos (beBytes_rev16 (s.reg rS)) _).1,
    (State.stores_complete rA (Nat.succ_pos 3) (beBytes_rev32 (s.reg rS)) _).1⟩

/-! ### The 14 stores share one operation -/

theorem exec_plainStore {s : State} {rS rA rB : Reg} {d : BitVec 16} {p : Instr × Word × Nat}
    (hp : p ∈ plainStores s rS rA rB d) : 0 < p.2.2 ∧ ∃ v, exec p.1 s = s.storeItem p.2.1 p.2.2 v := by
  simp only [plainStores, List.mem_cons, List.not_mem_nil, or_false] at hp
  obtain rfl | rfl | rfl | rfl | rfl | rfl | rfl | rfl := hp <;> exact ⟨Nat.succ_pos _, _, rfl⟩

/-- What the fields of a valid store with update satisfy (30_encoding.md R42 row 2). -/
theorem updateStore_valid {s : State} {rS rA rB : Reg} {d : BitVec 16} {p : Instr × Word × Nat}
    (hp : p ∈ updateStores s rS rA rB d) (hwf : p.1.wellFormed = true) : 0 < p.2.2 ∧ rA ≠ 0 := by
  have hrow : 0 < p.2.2 ∧ p.1.invalidRow = if rA = 0 then some .storeUpdate else none := by
    simp only [updateStores, List.mem_cons, List.not_mem_nil, or_false] at hp
    obtain rfl | rfl | rfl | rfl | rfl | rfl := hp <;> exact ⟨Nat.succ_pos _, rfl⟩
  refine ⟨hrow.1, fun hinv => ?_⟩
  rw [Instr.wellFormed, hrow.2, if_pos hinv] at hwf
  cases hwf

/-- Each well-formed single-item store stores its item and then may write rA. -/
theorem exec_singleStore {s : State} {rS rA rB : Reg} {d : BitVec 16} {p : Instr × Word × Nat}
    (hp : p ∈ plainStores s rS rA rB d ++ updateStores s rS rA rB d) (hwf : p.1.wellFormed = true) :
    0 < p.2.2 ∧ ∃ v k, exec p.1 s = s.withStore p.2.1 p.2.2 v k := by
  rcases List.mem_append.1 hp with hp | hp
  · obtain ⟨hn, v, hexec⟩ := exec_plainStore hp
    exact ⟨hn, v, _, hexec⟩
  · obtain ⟨hn, h0⟩ := updateStore_valid hp hwf
    exact ⟨hn, _, _, (exec_updateStore hp).trans (unlessStoreUpdateInvalid_of_valid h0 _)⟩

/-- Settles O34: alignment is tested before admission, and both before any byte is stored. -/
theorem singleStoresRaise : Obligations.SingleStoresRaise := by
  intro s rS rA rB d p hp hwf hf
  obtain ⟨hn, v, k, hexec⟩ := exec_singleStore hp hwf
  exact ⟨fun ha => hexec.trans (State.withStore_of_misaligned v k hn hf ha),
    fun ha hadm => hexec.trans (State.withStore_of_not_admitted v k hn hf ha hadm)⟩

/-! ### Frame -/

/-- Outside the bytes stored to, bytes and marks are as before. -/
theorem State.storeBytes_outside {s : State} {a x : Nat} {bs : List Byte} (h : ¬(a ≤ x ∧ x < a + bs.length)) :
    (s.storeBytes a bs).byteAt x = s.byteAt x ∧ (x ∈ (s.storeBytes a bs).dirtyCode ↔ x ∈ s.dirtyCode) := by
  rw [State.byteAt_storeBytes, if_neg h, State.dirty_storeBytes]
  exact ⟨rfl, or_iff_left h⟩

/-- Settles O42: a store that answers a next state stored its item, and wrote rA with update, or raised. -/
theorem singleStoresFrame : Obligations.SingleStoresFrame := by
  intro s t rS rA rB d
  constructor
  · intro p hp hnext
    obtain ⟨-, v, hexec⟩ := exec_plainStore hp
    rcases State.withStore_next (hexec ▸ hnext) with ⟨-, -, -, rfl⟩ | ⟨f, rfl⟩
    · refine ⟨fun q => State.reg_storeBytes s _ _ q, fun x hx => ?_, ?_⟩
      · exact State.storeBytes_outside (by rwa [beBytes_length])
      · rw [State.storeBytes_frame]; rfl
    · exact ⟨fun q => rfl, fun x _ => ⟨rfl, Iff.rfl⟩, rfl⟩
  · intro p hp hnext
    have hstore := (unlessStoreUpdateInvalid_next (exec_updateStore hp ▸ hnext)).2
    rcases State.withStore_next hstore with ⟨-, -, -, rfl⟩ | ⟨f, rfl⟩
    · refine ⟨fun q hq => ?_, fun x hx => ?_, ?_⟩
      · rw [State.reg_advance, State.reg_setReg_of_ne _ hq, State.reg_storeBytes]
      · exact State.storeBytes_outside (by rwa [beBytes_length])
      · rw [State.storeBytes_frame]; rfl
    · exact ⟨fun q _ => rfl, fun x _ => ⟨rfl, Iff.rfl⟩, rfl⟩

end Sys2Proof.Machine
end

section
/-!
Loads and stores of a run of registers: what the six instructions share, where they complete, and what they leave when
an exception stops them part-way (44_load_store_multiple.md; 45_load_store_string.md).
-/

namespace Sys2Proof.Machine

open Sys2Proof.Claims

/-! ### The checks before the loop -/

/-- The checks of a block of items of `g` bytes before its loop: those of lmw and stmw where the items are words, and
otherwise that of the string instructions. -/
def State.withChecks (s : State) (ea : Word) (n g : Nat) (k : Out) : Out :=
  if g = 4 then s.withBlock ea n k else withString ea n k

theorem State.withBlock_wraps {s : State} {ea : Word} {n : Nat} (k : Out) (hf : fits ea n = false) :
    s.withBlock ea n k = .refused (.addressWrap ea n) := by
  rw [State.withBlock, pastTop_eq_not_fits, hf]; rfl

theorem State.withBlock_misaligned {s : State} {ea : Word} {n : Nat} (k : Out) (hf : fits ea n = true)
    (ha : ea.toNat % 4 ≠ 0) : s.withBlock ea n k = .next (s.raise (.alignment ea)) := by
  rw [State.withBlock, pastTop_eq_not_fits, hf, if_pos ha]; rfl

theorem State.withBlock_aligned {s : State} {ea : Word} {n : Nat} (k : Out) (hf : fits ea n = true)
    (ha : ea.toNat % 4 = 0) : s.withBlock ea n k = k := by
  rw [State.withBlock, pastTop_eq_not_fits, hf, if_neg (not_not.2 ha)]; rfl

theorem withString_wraps {ea : Word} {n : Nat} (k : Out) (hf : fits ea n = false) :
    withString ea n k = .refused (.addressWrap ea n) := by
  rw [withString, pastTop_eq_not_fits, hf]; rfl

theorem withString_fits {ea : Word} {n : Nat} (k : Out) (hf : fits ea n = true) : withString ea n k = k := by
  rw [withString, pastTop_eq_not_fits, hf]; rfl

theorem State.withChecks_wraps {s : State} {ea : Word} {n : Nat} (g : Nat) (k : Out) (hf : fits ea n = false) :
    s.withChecks ea n g k = .refused (.addressWrap ea n) := by
  unfold State.withChecks
  split
  · exact State.withBlock_wraps k hf
  · exact withString_wraps k hf

theorem State.withChecks_passes {s : State} {ea : Word} {n g : Nat} (k : Out) (hf : fits ea n = true)
    (ha : blockAligned ea g = true) : s.withChecks ea n g k = k := by
  unfold State.withChecks
  split
  · next hg =>
    subst hg
    exact State.withBlock_aligned k hf (of_decide_eq_true ha)
  · exact withString_fits k hf

theorem State.withChecks_next {s t : State} {ea : Word} {n g : Nat} {k : Out} (h : s.withChecks ea n g k = .next t) :
    (∃ f, t = s.raise f) ∨ k = .next t := by
  unfold State.withChecks at h
  split at h
  · rcases State.withBlock_next h with ⟨-, -, ht⟩ | ⟨-, -, hk⟩
    · exact .inl ⟨_, ht⟩
    · exact .inr hk
  · exact .inr (withString_next h).2

/-! ### What the six instructions are -/

theorem valid_lmw_iff {s : State} {rD rA : Reg} {d : BitVec 16} :
    valid s (.lmw rD d rA) = true ↔ rA.toNat < rD.toNat := by
  simp [valid, Instr.wellFormed, Instr.invalidRow]

theorem valid_lswi_iff {s : State} {rD rA : Reg} {nb : BitVec 5} :
    valid s (.lswi rD rA nb) = true ↔ registerRunHas rD (registerCount (immediateCount nb)) rA = false := by
  simp [valid, Instr.wellFormed, Instr.invalidRow]

theorem valid_lswx_iff {s : State} {rD rA rB : Reg} :
    valid s (.lswx rD rA rB) = true ↔ (rD ≠ rA ∧ rD ≠ rB) ∧ lswxOverlap s rD rA rB = false := by
  simp [valid, Instr.wellFormed, Instr.invalidRow]

/-- A valid lmw is the checks and then the run (R91). -/
theorem exec_lmw {s : State} {rD rA : Reg} {d : BitVec 16} (h : rA.toNat < rD.toNat) :
    exec (.lmw rD d rA) s =
      s.withBlock (s.eaD rA d) (multipleLength rD) (s.loadRun rD (s.eaD rA d) (multipleLength rD) 4) :=
  if_neg (Nat.not_le.2 h)

/-- A valid lswi is the check and then the run (R99). -/
theorem exec_lswi {s : State} {rD rA : Reg} {nb : BitVec 5}
    (h : registerRunHas rD (registerCount (immediateCount nb)) rA = false) :
    exec (.lswi rD rA nb) s =
      withString (s.eaI rA) (immediateCount nb) (s.loadRun rD (s.eaI rA) (immediateCount nb) 1) :=
  if_neg (Bool.eq_false_iff.1 h)

/-- A valid lswx tests its byte count, then is the check and the run (R100). -/
theorem exec_lswx {s : State} {rD rA rB : Reg} (hAB : rD ≠ rA ∧ rD ≠ rB) (h : lswxOverlap s rD rA rB = false) :
    exec (.lswx rD rA rB) s = if s.xerBc = 0 then s.loadUndefined rD
      else withString (s.eaX rA rB) s.xerBc.toNat (s.loadRun rD (s.eaX rA rB) s.xerBc.toNat 1) :=
  (if_neg (not_or.2 hAB)).trans (if_neg (Bool.eq_false_iff.1 h))

/-- Each valid load of a run of at least one byte is its checks and then the run. -/
theorem exec_runLoad {s : State} {rD rA rB : Reg} {d : BitVec 16} {nb : BitVec 5} {p : Instr × Word × Nat × Nat}
    (hp : p ∈ runLoads s rD rA rB d nb) (hv : valid s p.1 = true) (hn : 0 < p.2.2.1) :
    exec p.1 s = s.withChecks p.2.1 p.2.2.1 p.2.2.2 (s.loadRun rD p.2.1 p.2.2.1 p.2.2.2) := by
  simp only [runLoads, List.mem_cons, List.not_mem_nil, or_false] at hp
  obtain rfl | rfl | rfl := hp
  · exact exec_lmw (valid_lmw_iff.1 hv)
  · exact exec_lswi (valid_lswi_iff.1 hv)
  · obtain ⟨hAB, hover⟩ := valid_lswx_iff.1 hv
    refine (exec_lswx hAB hover).trans (if_neg fun h0 => ?_)
    rw [h0] at hn
    exact Nat.lt_irrefl 0 hn

/-- Each store of a run is its checks and then the run: it has no invalid form. -/
theorem exec_runStore {s : State} {rS rA rB : Reg} {d : BitVec 16} {nb : BitVec 5} {p : Instr × Word × Nat × Nat}
    (hp : p ∈ runStores s rS rA rB d nb) :
    exec p.1 s = s.withChecks p.2.1 p.2.2.1 p.2.2.2 (s.storeRun rS p.2.1 p.2.2.1 p.2.2.2) := by
  simp only [runStores, List.mem_cons, List.not_mem_nil, or_false] at hp
  obtain rfl | rfl | rfl := hp <;> rfl

/-- What a load of a run did where it answers a next state. -/
theorem runLoad_next {s t : State} {rD rA rB : Reg} {d : BitVec 16} {nb : BitVec 5} {p : Instr × Word × Nat × Nat}
    (hp : p ∈ runLoads s rD rA rB d nb) (h : exec p.1 s = .next t) :
    (∃ f, t = s.raise f) ∨ s.loadUndefined rD = .next t ∨ s.loadRun rD p.2.1 p.2.2.1 p.2.2.2 = .next t := by
  simp only [runLoads, List.mem_cons, List.not_mem_nil, or_false] at hp
  obtain rfl | rfl | rfl := hp
  · simp only [exec, execLmw] at h
    split at h
    · cases h
    · rcases State.withBlock_next h with ⟨-, -, ht⟩ | ⟨-, -, hk⟩
      · exact .inl ⟨_, ht⟩
      · exact .inr (.inr hk)
  · simp only [exec, execLswi] at h
    split at h
    · cases h
    · exact .inr (.inr (withString_next h).2)
  · simp only [exec, execLswx] at h
    split at h
    · cases h
    · split at h
      · cases h
      · split at h
        · exact .inr (.inl h)
        · exact .inr (.inr (withString_next h).2)

/-! ### The size of a run -/

theorem registerCount_le {n : Nat} (h : n ≤ 128) : registerCount n ≤ 32 := by
  rw [registerCount]; omega

theorem multipleLength_le (r : Reg) : multipleLength r ≤ 128 := by
  rw [multipleLength]; omega

theorem multipleLength_pos (r : Reg) : 0 < multipleLength r := by
  have := r.isLt
  rw [multipleLength]; omega

theorem multipleLength_div_mul (r : Reg) : multipleLength r / 4 * 4 = multipleLength r := by
  rw [multipleLength]; omega

theorem immediateCount_le (nb : BitVec 5) : immediateCount nb ≤ 32 := by
  have := nb.isLt
  unfold immediateCount
  split <;> omega

theorem immediateCount_pos (nb : BitVec 5) : 0 < immediateCount nb := by
  unfold immediateCount
  split
  · decide
  · next h => exact Nat.pos_of_ne_zero fun h0 => h (BitVec.eq_of_toNat_eq h0)

/-- Each load of a run fills at most the 32 registers, and its block is a whole number of items. -/
theorem runLoads_size {s : State} {rD rA rB : Reg} {d : BitVec 16} {nb : BitVec 5} {p : Instr × Word × Nat × Nat}
    (hp : p ∈ runLoads s rD rA rB d nb) : registerCount p.2.2.1 ≤ 32 ∧ p.2.2.1 / p.2.2.2 * p.2.2.2 = p.2.2.1 := by
  simp only [runLoads, List.mem_cons, List.not_mem_nil, or_false] at hp
  obtain rfl | rfl | rfl := hp
  · exact ⟨registerCount_le (multipleLength_le rD), multipleLength_div_mul rD⟩
  · exact ⟨registerCount_le (Nat.le_trans (immediateCount_le nb) (by decide)), by simp⟩
  · exact ⟨registerCount_le (Nat.le_of_lt s.xerBc.isLt), by simp⟩

/-! ### The registers of a run -/

theorem State.reg_setRun_inside {s : State} {r : Reg} {ws : List Word} {j : Nat} {w : Word} (h : ws.length ≤ 32)
    (hj : ws[j]? = some w) : (s.setRun r ws).reg (r + BitVec.ofNat 5 j) = w := by
  have hlt : j < ws.length := (List.getElem?_eq_some_iff.1 hj).1
  have hdist : (r + BitVec.ofNat 5 j - r).toNat = j := by
    rw [add_sub_cancel_left, BitVec.toNat_ofNat]
    omega
  rw [State.reg_setRun _ _ _ _ h, hdist, hj]
  rfl

theorem State.reg_setRun_outside {s : State} {r q : Reg} {ws : List Word} (h : ws.length ≤ 32)
    (hq : registerRunHas r ws.length q = false) : (s.setRun r ws).reg q = s.reg q := by
  rw [registerRunHas_eq h, decide_eq_false_iff_not] at hq
  rw [State.reg_setRun _ _ _ _ h, List.getElem?_eq_none (Nat.le_of_not_lt hq)]
  rfl

theorem runWord_eq_blockWord (bs : List Byte) (j : Nat) : runWord bs j = blockWord bs j := beWord_word _ _ _ _

/-! ### Completion of a load -/

/-- A block that can be read is loaded whole (R91, R99, R100). -/
theorem State.loadRun_completes {s : State} {ea : Word} {n g : Nat} {bs : List Byte} (rD : Reg)
    (hn : n / g * g = n) (hl : bs.length = n) (h : holdsBytes s ea.toNat bs = true) :
    s.loadRun rD ea n g = .next (s.setRun rD (runWords bs)).advance := by
  rw [State.loadRun, State.readItems_of_holdsBytes (hl.trans hn.symm) h]

/-- The registers a completed load leaves (R98). -/
theorem runLoaded_setRun {s : State} {rD : Reg} {bs : List Byte} (h : registerCount bs.length ≤ 32) :
    runLoaded s (s.setRun rD (runWords bs)).advance rD bs := by
  have hlen : (runWords bs).length ≤ 32 := by rwa [runWords_length]
  refine ⟨fun j hj => ?_, fun q hq => ?_, ?_⟩
  · rw [State.reg_advance, ← runWord_eq_blockWord]
    exact State.reg_setRun_inside hlen (runWords_getElem? bs j hj)
  · exact State.reg_setRun_outside hlen (by rwa [runWords_length])
  · conv => lhs; rw [State.setRun_frame]
    rfl

/-- Each valid load of a run of at least one byte completes on a readable block that fits and is aligned. -/
theorem runLoad_completes {s : State} {rD rA rB : Reg} {d : BitVec 16} {nb : BitVec 5}
    {p : Instr × Word × Nat × Nat} {bs : List Byte} (hp : p ∈ runLoads s rD rA rB d nb) (hv : valid s p.1 = true)
    (hn : 0 < p.2.2.1) (hf : fits p.2.1 p.2.2.1 = true) (ha : blockAligned p.2.1 p.2.2.2 = true)
    (hl : bs.length = p.2.2.1) (h : holdsBytes s p.2.1.toNat bs = true) :
    exec p.1 s = .next (s.setRun rD (runWords bs)).advance ∧
      runLoaded s (s.setRun rD (runWords bs)).advance rD bs := by
  obtain ⟨hcount, hitems⟩ := runLoads_size hp
  rw [exec_runLoad hp hv hn, State.withChecks_passes _ hf ha, State.loadRun_completes rD hitems hl h]
  exact ⟨rfl, runLoaded_setRun (hl ▸ hcount)⟩

theorem lmw_mem_runLoads (s : State) (rD rA : Reg) (d : BitVec 16) :
    (.lmw rD d rA, s.eaD rA d, multipleLength rD, 4) ∈ runLoads s rD rA 0 d 0 := .head _

theorem lswi_mem_runLoads (s : State) (rD rA : Reg) (nb : BitVec 5) :
    (.lswi rD rA nb, s.eaI rA, immediateCount nb, 1) ∈ runLoads s rD rA 0 0 nb := .tail _ (.head _)

theorem lswx_mem_runLoads (s : State) (rD rA rB : Reg) :
    (.lswx rD rA rB, s.eaX rA rB, s.xerBc.toNat, 1) ∈ runLoads s rD rA rB 0 0 := .tail _ (.tail _ (.head _))

theorem blockAligned_one (ea : Word) : blockAligned ea 1 = true := decide_eq_true (Nat.mod_one _)

/-- Settles O26: rA below rD makes lmw valid, and its block is never empty. -/
theorem loadMultipleCompletes : Obligations.LoadMultipleCompletes := by
  intro s rD rA d bs hA hl hf ha h
  exact ⟨_, runLoad_completes (lmw_mem_runLoads s rD rA d) (valid_lmw_iff.2 hA) (multipleLength_pos rD) hf
    (decide_eq_true ha) hl h⟩

/-- Settles O28: a byte count of 0 stands for 32, so the string is never empty. -/
theorem loadStringImmediateCompletes : Obligations.LoadStringImmediateCompletes := by
  intro s rD rA nb bs hA hl hf h
  exact ⟨_, runLoad_completes (lswi_mem_runLoads s rD rA nb) (valid_lswi_iff.2 hA) (immediateCount_pos nb) hf
    (blockAligned_one _) hl h⟩

/-- Settles O29: a count that is not 0 takes the same run as lswi. -/
theorem loadStringIndexedCompletes : Obligations.LoadStringIndexedCompletes := by
  intro s rD rA rB bs hA hB hover hcount hl hf h
  have hpos : 0 < s.xerBc.toNat := Nat.pos_of_ne_zero fun h0 => hcount (BitVec.eq_of_toNat_eq h0)
  exact ⟨_, runLoad_completes (lswx_mem_runLoads s rD rA rB) (valid_lswx_iff.2 ⟨⟨hA, hB⟩, hover⟩) hpos hf
    (blockAligned_one _) hl h⟩

/-- Settles O30: with no byte to load no register is in the run, so nothing overlaps. -/
theorem loadStringOfNoByteCompletes : Obligations.LoadStringOfNoByteCompletes := by
  intro s rD rA rB hA hB h0
  have hover : lswxOverlap s rD rA rB = false := by rw [lswxOverlap, h0]; rfl
  exact ⟨_, (exec_lswx ⟨hA, hB⟩ hover).trans (if_pos h0), fun q hq => s.reg_setReg_of_ne hq _, rfl⟩

/-! ### Completion of a store -/

/-- Each store of a run completes on an admitted block that fits and is aligned. -/
theorem runStore_completes {s : State} {rS rA rB : Reg} {d : BitVec 16} {nb : BitVec 5}
    {p : Instr × Word × Nat × Nat} (hp : p ∈ runStores s rS rA rB d nb) (hf : fits p.2.1 p.2.2.1 = true)
    (ha : blockAligned p.2.1 p.2.2.2 = true) (hadm : admitted s p.2.1.toNat p.2.2.1 = true) :
    exec p.1 s = .next (s.storeBytes p.2.1.toNat (stringBytes s rS p.2.2.1)).advance := by
  rw [exec_runStore hp, State.withChecks_passes _ hf ha, State.storeRun, State.admissionFault_of_admitted _ hadm]
  rfl

theorem stmw_mem_runStores (s : State) (rS rA : Reg) (d : BitVec 16) :
    (.stmw rS d rA, s.eaD rA d, multipleLength rS, 4) ∈ runStores s rS rA 0 d 0 := .head _

theorem stswi_mem_runStores (s : State) (rS rA : Reg) (nb : BitVec 5) :
    (.stswi rS rA nb, s.eaI rA, immediateCount nb, 1) ∈ runStores s rS rA 0 0 nb := .tail _ (.head _)

theorem stswx_mem_runStores (s : State) (rS rA rB : Reg) :
    (.stswx rS rA rB, s.eaX rA rB, s.xerBc.toNat, 1) ∈ runStores s rS rA rB 0 0 := .tail _ (.tail _ (.head _))

/-- Settles O27: the bytes of the words in order are the string of the registers. -/
theorem storeMultipleCompletes : Obligations.StoreMultipleCompletes := by
  intro s rS rA d hf ha hadm
  exact ⟨_, runStore_completes (stmw_mem_runStores s rS rA d) hf (decide_eq_true ha) hadm,
    storeCompletes_storeBytes s _ _⟩

/-- Settles O31. A string has no alignment to meet. -/
theorem storeStringImmediateCompletes : Obligations.StoreStringImmediateCompletes := by
  intro s rS rA nb hf hadm
  exact ⟨_, runStore_completes (stswi_mem_runStores s rS rA nb) hf (blockAligned_one _) hadm,
    storeCompletes_storeBytes s _ _⟩

/-- Settles O32. No byte is a block like any other. -/
theorem storeStringIndexedCompletes : Obligations.StoreStringIndexedCompletes := by
  intro s rS rA rB hf hadm
  exact ⟨_, runStore_completes (stswx_mem_runStores s rS rA rB) hf (blockAligned_one _) hadm,
    storeCompletes_storeBytes s _ _⟩

/-! ### A raise before the loop -/

/-- Settles O35: the alignment of the block is tested before its loop, whatever the policy. -/
theorem misalignedMultipleRaises : Obligations.MisalignedMultipleRaises := by
  intro s r rA d hf ha
  exact ⟨fun hA => (exec_lmw hA).trans (State.withBlock_misaligned _ hf ha), State.withBlock_misaligned _ hf ha⟩

/-! ### A load stopped part-way -/

/-- The read of an item that raises, as the statement has it. -/
theorem State.readItem_of_itemRaises {s : State} {a : Word} {g : Nat} {f : Fault} (h : itemRaises s a g f) :
    s.readItem a.toNat g = .error f := by
  rcases h with ⟨hadm, rfl⟩ | ⟨k, hk, rfl⟩
  · simpa using State.readItem_of_not_admitted hadm
  · rw [← ofNat_toNat_add]
    exact State.readItem_of_firstValueless hk

/-- An address inside an access that fits is no sum modulo 2^32 (20_memory.md R24). -/
theorem toNat_add_ofNat {a : Word} {k : Nat} (h : a.toNat + k < 4294967296) :
    (a + BitVec.ofNat 32 k).toNat = a.toNat + k := by
  rw [← ofNat_toNat_add, BitVec.toNat_ofNat, Nat.mod_eq_of_lt h]

/-- A block whose item `i` raises, the items before it readable, raises what that item raises. -/
theorem State.readItems_stopped {s : State} {ea : Word} {n g i : Nat} {f : Fault} (hf : fits ea n = true)
    (hitems : n / g * g = n) (hi : g * i < n) (hbefore : Claims.readable s ea.toNat (g * i) = true)
    (hitem : itemRaises s (ea + BitVec.ofNat 32 (g * i)) g f) : s.readItems ea.toNat g (n / g) = .error f := by
  have hfit : ea.toNat + n ≤ 4294967296 := of_decide_eq_true hf
  have hlt : i < n / g := Nat.lt_of_mul_lt_mul_left (a := g) (by rwa [Nat.mul_comm g (n / g), hitems])
  have hread := State.readItem_of_itemRaises hitem
  rw [toNat_add_ofNat (by omega), Nat.mul_comm] at hread
  refine State.readItems_error.2 ⟨i, hlt, fun j hj => ?_, hread⟩
  simp only [Claims.readable, List.all_eq_true, List.mem_range, Bool.and_eq_true] at hbefore
  exact hbefore j (by rwa [Nat.mul_comm])

/-- A register of a stopped run: its old value, or its new one where its bytes can be read (R94, R105). -/
theorem State.drawnWord_old_or_new (s : State) (rD : Reg) (a n j : Nat) :
    s.drawnWord rD a n j = s.reg (rD + BitVec.ofNat 5 j) ∨
    ∃ bs, bs.length = min 4 (n - 4 * j) ∧ holdsBytes s (a + 4 * j) bs = true ∧
      s.drawnWord rD a n j = blockWord bs 0 := by
  rw [State.drawnWord, State.newWord]
  cases hread : s.readItem (a + 4 * j) (min 4 (n - 4 * j)) with
  | error f => exact .inl rfl
  | ok bs =>
    obtain ⟨hl, hbytes⟩ := State.readItem_eq_ok_iff.1 hread
    cases hdraw : Config.drawNew (s.draws + j) with
    | false => exact .inl (by simp)
    | true => exact .inr ⟨bs, hl, hbytes, by simp [runWord_eq_blockWord]⟩

/-- The state a stopped load leaves: only registers of the run may have changed (R94, R105). -/
theorem State.drawRun_frame (s : State) (rD : Reg) (a n : Nat) :
    s.drawRun rD a n = { s with gpr := (s.drawRun rD a n).gpr, draws := (s.drawRun rD a n).draws } := by
  conv => lhs; rw [State.drawRun, State.setRun_frame]
  rfl

theorem State.reg_drawRun_inside {s : State} {rD : Reg} {a n j : Nat} (hn : registerCount n ≤ 32)
    (hj : j < registerCount n) : (s.drawRun rD a n).reg (rD + BitVec.ofNat 5 j) = s.drawnWord rD a n j :=
  State.reg_setRun_inside (s := s) (by simpa using hn) (by simp [hj])

theorem State.reg_drawRun_outside {s : State} {rD q : Reg} {a n : Nat} (hn : registerCount n ≤ 32)
    (hq : registerRunHas rD (registerCount n) q = false) : (s.drawRun rD a n).reg q = s.reg q :=
  State.reg_setRun_outside (s := s) (by simpa using hn) (by simpa using hq)

/-- Settles O36: the first item that cannot be read decides the exception, and the run is drawn. -/
theorem interruptedRunLoadsLeaveOldOrNew : Obligations.InterruptedRunLoadsLeaveOldOrNew := by
  intro s rD rA rB d nb i f p hp hv hf ha hi hbefore hitem
  obtain ⟨hcount, hitems⟩ := runLoads_size hp
  have hpos : 0 < p.2.2.1 := Nat.lt_of_le_of_lt (Nat.zero_le _) hi
  have hread := State.readItems_stopped hf hitems hi hbefore hitem
  refine ⟨(s.drawRun rD p.2.1.toNat p.2.2.1).raise f, ?_, ?_, fun q hq => ?_, fun j hj => ?_⟩
  · rw [exec_runLoad hp hv hpos, State.withChecks_passes _ hf ha, State.loadRun, hread]
  · conv => lhs; rw [State.drawRun_frame]
    rfl
  · exact State.reg_drawRun_outside hcount hq
  · rw [State.reg_raise, State.reg_drawRun_inside hcount hj]
    exact s.drawnWord_old_or_new rD p.2.1.toNat p.2.2.1 j

/-! ### A store stopped part-way -/

/-- Settles O37: the first byte that is not admitted decides the exception, and the block is drawn. -/
theorem interruptedRunStoresLeaveOldOrNew : Obligations.InterruptedRunStoresLeaveOldOrNew := by
  intro s rS rA rB d nb k p hp hf ha hk
  have hfault := State.admissionFault_of_firstUnadmitted p.2.2.2 hk
  rw [itemAddr, ofNat_toNat_add] at hfault
  refine ⟨(s.drawBlock p.2.1.toNat (s.runBytes rS p.2.2.1)).raise
    (.dsi (p.2.1 + BitVec.ofNat 32 (p.2.2.2 * (k / p.2.2.2)))), ?_, ?_, fun x => ?_, fun x hx => ?_⟩
  · rw [exec_runStore hp, State.withChecks_passes _ hf ha, State.storeRun, hfault]
  · conv => lhs; rw [State.drawBlock, State.drawBytes_frame]
    rfl
  · rcases State.byteAt_drawBytes s p.2.1.toNat s.draws x (s.runBytes rS p.2.2.1) with hold | ⟨hlo, hhi, hadm, hnew⟩
    · exact .inl hold
    · rw [State.runBytes_length] at hhi
      rw [State.runBytes_getElem? s rS p.2.2.1 _ (by omega)] at hnew
      exact .inr ⟨hlo, hhi, hadm, hnew⟩
  · rcases State.dirty_drawBytes hx with hold | ⟨hlo, hhi, -⟩
    · exact .inl hold
    · exact .inr ⟨hlo, by rwa [State.runBytes_length] at hhi⟩

/-! ### Frames -/

/-- Settles O43: a load that answers a next state drew rD, wrote its run, or raised, before or in the loop. -/
theorem runLoadsFrame : Obligations.RunLoadsFrame := by
  intro s t rD rA rB d nb p hp hnext
  obtain ⟨hcount, hitems⟩ := runLoads_size hp
  rcases runLoad_next hp hnext with ⟨f, rfl⟩ | hundef | hrun
  · exact ⟨fun q _ _ => rfl, fun x => rfl, rfl⟩
  · cases hundef
    exact ⟨fun q hq _ => s.reg_setReg_of_ne hq _, fun x => rfl, rfl⟩
  · rcases State.loadRun_next hrun with ⟨bs, hread, rfl⟩ | ⟨f, -, rfl⟩
    · have hl : bs.length = p.2.2.1 := (State.readItems_ok.1 hread).1.trans hitems
      obtain ⟨-, houtside, hframe⟩ := runLoaded_setRun (s := s) (rD := rD) (hl ▸ hcount)
      refine ⟨fun q _ hq => houtside q (hl ▸ hq), fun x => s.byteAt_setRun rD _ x, ?_⟩
      rw [State.setRun_frame]; rfl
    · refine ⟨fun q _ hq => State.reg_drawRun_outside hcount hq, fun x => s.byteAt_drawRun rD _ _ x, ?_⟩
      rw [State.drawRun_frame]; rfl

/-- Outside its block a store stopped part-way leaves bytes and marks as before. -/
theorem State.drawBytes_outside {s : State} {a c x : Nat} {bs : List Byte} (h : ¬(a ≤ x ∧ x < a + bs.length)) :
    (s.drawBytes a c bs).byteAt x = s.byteAt x ∧ (x ∈ (s.drawBytes a c bs).dirtyCode ↔ x ∈ s.dirtyCode) := by
  constructor
  · exact (State.byteAt_drawBytes s a c x bs).resolve_right fun ⟨hlo, hhi, _⟩ => h ⟨hlo, hhi⟩
  · exact ⟨fun hx => (State.dirty_drawBytes hx).resolve_right fun ⟨hlo, hhi, _⟩ => h ⟨hlo, hhi⟩,
      State.dirty_drawBytes_mono⟩

/-- Settles O44: a store that answers a next state stored its block, or raised, before or in the loop. -/
theorem runStoresFrame : Obligations.RunStoresFrame := by
  intro s t rS rA rB d nb p hp hnext
  rcases State.withChecks_next (exec_runStore hp ▸ hnext) with ⟨f, rfl⟩ | hrun
  · exact ⟨fun q => rfl, fun x _ => ⟨rfl, Iff.rfl⟩, rfl⟩
  · rcases State.storeRun_next hrun with ⟨-, rfl⟩ | ⟨f, -, rfl⟩
    · refine ⟨fun q => State.reg_storeBytes s _ _ q, fun x hx => ?_, ?_⟩
      · exact State.storeBytes_outside (by rwa [State.runBytes_length])
      · rw [State.storeBytes_frame]; rfl
    · refine ⟨fun q => State.reg_drawBlock s _ _ q, fun x hx => ?_, ?_⟩
      · exact State.drawBytes_outside (by rwa [State.runBytes_length])
      · rw [State.drawBlock, State.drawBytes_frame]; rfl

end Sys2Proof.Machine
end

section
/-!
Refusals: an access past the top of the address space by each of the 38, and the invalid forms, which each instruction
tests by one row of the table (20_memory.md R24; 30_encoding.md R42; 60_exceptions.md R118).
-/

namespace Sys2Proof.Machine

open Sys2Proof.Claims

/-! ### Accesses past the top -/

theorem pos_of_not_fits {ea : Word} {n : Nat} (h : fits ea n = false) : 0 < n := by
  refine Nat.pos_of_ne_zero fun h0 => ?_
  rw [fits, decide_eq_false_iff_not] at h
  exact h (by rw [h0]; exact Nat.le_of_lt ea.isLt)

/-- Settles O38: each shared operation tests the wrap first, and the run of no byte has none. -/
theorem accessPastTheTopIsRefused : Obligations.AccessPastTheTopIsRefused := by
  intro s r rA rB d nb
  constructor
  · intro p hp hwf hf
    rw [List.append_assoc] at hp
    rcases List.mem_append.1 hp with hp | hp
    · obtain ⟨-, k, hexec⟩ := exec_singleLoad hp hwf
      exact hexec.trans (State.withItem_wraps k hf)
    · obtain ⟨-, v, k, hexec⟩ := exec_singleStore hp hwf
      exact hexec.trans (State.withStore_wraps v k hf)
  · intro p hp hv hf
    rcases List.mem_append.1 hp with hp | hp
    · exact (exec_runLoad hp hv (pos_of_not_fits hf)).trans (State.withChecks_wraps _ _ hf)
    · exact (exec_runStore hp).trans (State.withChecks_wraps _ _ hf)

/-! ### What an instruction answers that is no invalid form -/

/-- A next state, or the refusal of an access that really passes the top. -/
def NextOrWraps (o : Out) : Prop :=
  (∃ t, o = .next t) ∨ ∃ a n, o = .refused (.addressWrap a n) ∧ fits a n = false

theorem NextOrWraps.not_invalidForm {o : Out} (h : NextOrWraps o) (row : InvalidRow) :
    o ≠ .refused (.invalidForm row) := by
  rcases h with ⟨t, rfl⟩ | ⟨a, n, rfl, -⟩ <;> exact fun h => by cases h

theorem State.withItem_answers (s : State) (ea : Word) (n : Nat) (k : Word → State) :
    NextOrWraps (s.withItem ea n k) := by
  cases hf : fits ea n with
  | false => exact .inr ⟨ea, n, State.withItem_wraps k hf, hf⟩
  | true =>
    cases hr : s.memRead ea n with
    | ok v => exact .inl ⟨_, State.withItem_completes k hf hr⟩
    | error f => exact .inl ⟨_, State.withItem_raises k hf hr⟩

theorem State.withStore_answers (s : State) (ea : Word) (n : Nat) (v : Word) (k : State → State) :
    NextOrWraps (s.withStore ea n v k) := by
  cases hf : fits ea n with
  | false => exact .inr ⟨ea, n, State.withStore_wraps v k hf, hf⟩
  | true =>
    refine .inl ?_
    rw [State.withStore, pastTop_eq_not_fits, hf, Bool.not_true, if_neg Bool.false_ne_true]
    split
    · exact ⟨_, rfl⟩
    · split <;> exact ⟨_, rfl⟩

theorem State.storeItem_answers (s : State) (ea : Word) (n : Nat) (v : Word) : NextOrWraps (s.storeItem ea n v) :=
  s.withStore_answers ea n v _

theorem State.withBlock_answers (s : State) (ea : Word) (n : Nat) {k : Out} (hk : ∃ t, k = .next t) :
    NextOrWraps (s.withBlock ea n k) := by
  cases hf : fits ea n with
  | false => exact .inr ⟨ea, n, State.withBlock_wraps k hf, hf⟩
  | true =>
    by_cases ha : ea.toNat % 4 = 0
    · rw [State.withBlock_aligned k hf ha]; exact .inl hk
    · exact .inl ⟨_, State.withBlock_misaligned k hf ha⟩

theorem withString_answers (ea : Word) (n : Nat) {k : Out} (hk : ∃ t, k = .next t) :
    NextOrWraps (withString ea n k) := by
  cases hf : fits ea n with
  | false => exact .inr ⟨ea, n, withString_wraps k hf, hf⟩
  | true => rw [withString_fits k hf]; exact .inl hk

/-! ### The one row each instruction tests -/

/-- The instruction falls under this row of R42 in this state (the run-time overlap of lswx is R103's). -/
def FallsUnder (s : State) (i : Instr) (row : InvalidRow) : Prop :=
  i.invalidRow = some row ∨ (row = .lswxRange ∧ ∃ rD rA rB, i = .lswx rD rA rB ∧ lswxOverlap s rD rA rB = true)

/-- The instruction falls under `row` where `c` holds and under no row otherwise, and its meaning answers so. -/
def TestsRow (s : State) (i : Instr) (row : InvalidRow) (c : Prop) : Prop :=
  (∀ r, FallsUnder s i r ↔ c ∧ row = r) ∧ (c → exec i s = .refused (.invalidForm row)) ∧ (¬c → NextOrWraps (exec i s))

/-- Every instruction but lswx is an invalid form by its fields alone. -/
theorem fallsUnder_iff_fields {s : State} {i : Instr} (hi : ∀ rD rA rB, i ≠ .lswx rD rA rB) (r : InvalidRow) :
    FallsUnder s i r ↔ i.invalidRow = some r :=
  or_iff_left fun ⟨_, rD, rA, rB, h, _⟩ => hi rD rA rB h

/-- An instruction under no row tests nothing. -/
theorem testsRow_of_no_row {s : State} {i : Instr} (hi : ∀ rD rA rB, i ≠ .lswx rD rA rB) (hrow : i.invalidRow = none)
    (h : NextOrWraps (exec i s)) : ∃ row c, TestsRow s i row c :=
  ⟨.loadUpdate, False, fun r => by simp [fallsUnder_iff_fields hi, hrow], False.elim, fun _ => h⟩

/-- An instruction with a row tests what the row says. -/
theorem testsRow_of_fields {s : State} {i : Instr} {row : InvalidRow} {c : Prop} [Decidable c] {k : Out}
    (hi : ∀ rD rA rB, i ≠ .lswx rD rA rB) (hrow : i.invalidRow = if c then some row else none)
    (hexec : exec i s = if c then .refused (.invalidForm row) else k) (hk : NextOrWraps k) :
    ∃ row c, TestsRow s i row c := by
  refine ⟨row, c, fun r => by simp [fallsUnder_iff_fields hi, hrow], fun hc => ?_, fun hc => ?_⟩
  · rw [hexec, if_pos hc]
  · rw [hexec, if_neg hc]; exact hk

/-- lswx tests its fields and then the overlap of its run. -/
theorem testsRow_lswx (s : State) (rD rA rB : Reg) :
    TestsRow s (.lswx rD rA rB) .lswxRange ((rD = rA ∨ rD = rB) ∨ lswxOverlap s rD rA rB = true) := by
  refine ⟨fun r => ?_, fun hc => ?_, fun hc => ?_⟩
  · simp [FallsUnder, Instr.invalidRow, @eq_comm _ r, or_and_right, @and_comm (InvalidRow.lswxRange = r)]
  · by_cases hAB : rD = rA ∨ rD = rB
    · exact if_pos hAB
    · exact (if_neg hAB).trans (if_pos (hc.resolve_left hAB))
  · obtain ⟨hAB, hover⟩ := not_or.1 hc
    rw [exec_lswx (not_or.1 hAB) (Bool.eq_false_iff.2 hover)]
    split
    · exact .inl ⟨_, rfl⟩
    · exact withString_answers _ _ (State.loadRun_answers _ _ _ _ _)

/-- Each of the 38 tests one row, or none. -/
theorem exec_testsRow (s : State) (i : Instr) : ∃ row c, TestsRow s i row c := by
  cases i with
  | lbz | lbzx | lhz | lhzx | lha | lhax | lwz | lwzx | lhbrx | lwbrx =>
    exact testsRow_of_no_row (by simp) rfl (State.withItem_answers _ _ _ _)
  | stb | stbx | sth | sthx | stw | stwx | sthbrx | stwbrx =>
    exact testsRow_of_no_row (by simp) rfl (State.storeItem_answers _ _ _ _)
  | stmw => exact testsRow_of_no_row (by simp) rfl (State.withBlock_answers _ _ _ (State.storeRun_answers _ _ _ _ _))
  | stswi | stswx => exact testsRow_of_no_row (by simp) rfl (withString_answers _ _ (State.storeRun_answers _ _ _ _ _))
  | lbzu | lbzux | lhzu | lhzux | lhau | lhaux | lwzu | lwzux =>
    exact testsRow_of_fields (by simp) rfl rfl (State.withItem_answers _ _ _ _)
  | stbu | stbux | sthu | sthux | stwu | stwux =>
    exact testsRow_of_fields (by simp) rfl rfl (State.withStore_answers _ _ _ _ _)
  | lmw => exact testsRow_of_fields (by simp) rfl rfl (State.withBlock_answers _ _ _ (State.loadRun_answers _ _ _ _ _))
  | lswi => exact testsRow_of_fields (by simp) rfl rfl (withString_answers _ _ (State.loadRun_answers _ _ _ _ _))
  | lswx rD rA rB => exact ⟨_, _, testsRow_lswx s rD rA rB⟩

/-- Settles O39: the row an instruction tests is the row it falls under, and it is refused by no other. -/
theorem invalidFormsAndOnlyTheseAreRefused : Obligations.InvalidFormsAndOnlyTheseAreRefused := by
  intro s i row
  change _ ↔ FallsUnder s i row
  obtain ⟨row', c, hfalls, hinvalid, hvalid⟩ := exec_testsRow s i
  rw [hfalls]
  constructor
  · intro hexec
    by_cases hc : c
    · rw [hinvalid hc] at hexec
      cases hexec
      exact ⟨hc, rfl⟩
    · exact absurd hexec ((hvalid hc).not_invalidForm row)
  · rintro ⟨hc, rfl⟩
    exact hinvalid hc

/-- Settles O40: an instruction whose test fails is refused by its row, and any other goes on or wraps. -/
theorem execAnswersNextUnlessInvalidOrWrapping : Obligations.ExecAnswersNextUnlessInvalidOrWrapping := by
  intro s i
  obtain ⟨row, c, -, hinvalid, hvalid⟩ := exec_testsRow s i
  by_cases hc : c
  · exact .inr (.inl ⟨row, hinvalid hc⟩)
  · exact (hvalid hc).imp_right .inr

end Sys2Proof.Machine
end

section
/-!
Equivalences: a load of what a store has just stored, and the multiple and string instructions against the sequences of
word loads and stores (20_memory.md R30; 44_load_store_multiple.md R91, R92; 45_load_store_string.md R106).
-/

namespace Sys2Proof.Machine

open Sys2Proof.Claims

/-! ### A load of what a store has just stored -/

/-- An effective address depends on the registers alone. -/
theorem State.eaD_congr {s t : State} (h : t.gpr = s.gpr) (rA : Reg) (d : BitVec 16) : t.eaD rA d = s.eaD rA d := by
  simp only [State.eaD, State.base, State.reg, h]

theorem State.eaX_congr {s t : State} (h : t.gpr = s.gpr) (rA rB : Reg) : t.eaX rA rB = s.eaX rA rB := by
  simp only [State.eaX, State.base, State.reg, h]

/-- Alignment depends on the policy, and what bytes hold on memory and the admitted addresses. -/
theorem alignedOrPerformed_congr {s t : State} (h : t.platform = s.platform) (ea : Word) (n : Nat) :
    alignedOrPerformed t ea n = alignedOrPerformed s ea n := by
  rw [alignedOrPerformed, alignedOrPerformed, h]

theorem holdsBytes_congr {s t : State} (hm : t.mem = s.mem) (hp : t.platform = s.platform) (a : Nat)
    (bs : List Byte) : holdsBytes t a bs = holdsBytes s a bs := by
  induction bs generalizing a with
  | nil => rfl
  | cons b bs ih => rw [holdsBytes, holdsBytes, ih, State.admits, State.admits, State.byteAt, State.byteAt, hm, hp]

theorem holdsBytes_advance (s : State) (a : Nat) (bs : List Byte) : holdsBytes s.advance a bs = holdsBytes s a bs :=
  holdsBytes_congr s.advance_mem s.advance_platform a bs

/-- Admitted bytes hold what has just been stored there. -/
theorem holdsBytes_storeBytes {s : State} {a : Nat} {bs : List Byte} (h : admitted s a bs.length = true) :
    holdsBytes (s.storeBytes a bs) a bs = true := by
  refine holdsBytes_iff.2 fun j hj => ⟨?_, ?_⟩
  · rw [State.admits_storeBytes]
    exact admitted_iff.1 h j hj
  · rw [State.byteAt_storeBytes, if_pos (by omega), Nat.add_sub_cancel_left]

/-- A store that advanced the pc completed, and a load of the same item at the same address reads it back. -/
theorem State.loadItem_after_storeItem {s t : State} {ea v : Word} {n : Nat} (conv : Word → Word) (rD : Reg)
    (hn : 0 < n) (hpc : t.pc = s.pc + 4) (h : s.storeItem ea n v = .next t) :
    t.gpr = s.gpr ∧ t.loadItem ea n conv rD = .next (loaded t rD (conv (beWord (beBytes n v)))) := by
  rcases State.withStore_next h with ⟨hp, hm, hadm, rfl⟩ | ⟨f, rfl⟩
  · refine ⟨s.storeBytes_gpr _ _, (State.loads_complete rD 0 hn (beBytes_length n v) rfl ea).1 ?_ ?_ ?_⟩
    · simpa [pastTop_eq_not_fits] using hp
    · rw [State.misaligned_eq hn, Bool.not_eq_false'] at hm
      exact (alignedOrPerformed_congr (s := s) (by simp) ea n).trans hm
    · have hadmitted : admitted s ea.toNat (beBytes n v).length = true :=
        admitted_iff.2 (by simpa using State.admissionFault_none.1 hadm)
      exact (holdsBytes_advance _ _ _).trans (holdsBytes_storeBytes hadmitted)
  · exact absurd hpc.symm s.advance_pc_ne

/-- Reversing the bytes twice gives the word (43_byte_reverse.md R85). -/
theorem rev32_rev32 (v : Word) : rev32 (rev32 v) = v := by
  have hrev : rev32 v = beWord (wordBytes v).reverse := (beWord_word _ _ _ _).symm
  rw [hrev]
  exact (rev32_beWord _ _ _ _).trans ((beWord_word _ _ _ _).symm.trans (beWord_beBytes v))

/-- Settles O51: each pair reads the bytes just stored, at the address the store computed. -/
theorem storeThenLoadGivesTheValue : Obligations.StoreThenLoadGivesTheValue := by
  intro s t rS rD rA rB d hpc
  have immediate {n : Nat} {v : Word} (hn : 0 < n) (h : s.storeItem (s.eaD rA d) n v = .next t) :
      t.loadItem (t.eaD rA d) n zeroExtended rD = .next (loaded t rD (beWord (beBytes n v))) := by
    obtain ⟨hgpr, hload⟩ := State.loadItem_after_storeItem zeroExtended rD hn hpc h
    rwa [State.eaD_congr hgpr]
  have indexed (conv : Word → Word) (h : s.storeItem (s.eaX rA rB) 4 (rev32 (s.reg rS)) = .next t) :
      t.loadItem (t.eaX rA rB) 4 conv rD = .next (loaded t rD (conv (rev32 (s.reg rS)))) := by
    obtain ⟨hgpr, hload⟩ := State.loadItem_after_storeItem conv rD (Nat.succ_pos 3) hpc h
    rwa [State.eaX_congr hgpr, ← beWord_beBytes (rev32 (s.reg rS))]
  refine ⟨fun h => ?word, fun h => ?half, fun h => ?byte, fun h => ?reversed, fun h => indexed zeroExtended h⟩
  case word => rw [← beWord_beBytes (s.reg rS)]; exact immediate (Nat.succ_pos 3) h
  case half => rw [← beWord_beBytes_half]; exact immediate Nat.two_pos h
  case byte => rw [← beWord_beBytes_byte]; exact immediate Nat.one_pos h
  case reversed =>
    have hload := indexed rev32 h
    rwa [rev32_rev32] at hload

/-! ### Sequences of instructions -/

/-- One instruction more, after a sequence that answers a next state. -/
theorem execAll_concat {is : List Instr} {i : Instr} {s t u : State} (h : execAll is s = .next t)
    (hi : exec i t = .next u) : execAll (is ++ [i]) s = .next u := by
  induction is generalizing s with
  | nil =>
    cases h
    simp [execAll, hi]
  | cons j is ih =>
    rw [execAll] at h
    cases hj : exec j s with
    | next s' =>
      rw [hj] at h
      rw [List.cons_append, execAll, hj]
      exact ih h
    | fault f => rw [hj] at h; cases h
    | refused r => rw [hj] at h; cases h

theorem exec_lwz (rD : Reg) (d : BitVec 16) (rA : Reg) (s : State) :
    exec (.lwz rD d rA) s = s.loadItem (s.eaD rA d) 4 zeroExtended rD := rfl

theorem exec_stw (rS : Reg) (d : BitVec 16) (rA : Reg) (s : State) :
    exec (.stw rS d rA) s = s.storeItem (s.eaD rA d) 4 (s.reg rS) := rfl

/-- A sequence whose instruction `k` leads from state `k` to state `k + 1`. -/
theorem execAll_range {instr : Nat → Instr} {state : Nat → State} {m : Nat}
    (h : ∀ k, k < m → exec (instr k) (state k) = .next (state (k + 1))) :
    execAll ((List.range m).map instr) (state 0) = .next (state m) := by
  induction m with
  | zero => rfl
  | succ m ih =>
    rw [List.range_succ, List.map_append]
    exact execAll_concat (ih fun k hk => h k (Nat.lt_succ_of_lt hk)) (h m (Nat.lt_succ_self m))

/-- The pc after one word more. -/
theorem pc_add_words_succ (pc : Word) (k : Nat) :
    pc + BitVec.ofNat 32 (4 * (k + 1)) = pc + BitVec.ofNat 32 (4 * k) + 4 := by
  rw [Nat.mul_succ, BitVec.ofNat_add, ← BitVec.add_assoc]
  rfl

/-! ### The displacements of a sequence -/

theorem toInt_add_ofNat {d : BitVec 16} {x : Nat} (h : d.toInt + x < 32768) :
    (d + BitVec.ofNat 16 x).toInt = d.toInt + x := by
  have hlow := BitVec.le_toInt d
  rw [BitVec.toInt_add, BitVec.toInt_ofNat', Int.add_bmod_bmod, Int.bmod_eq_of_le] <;> omega

/-- A displacement that stays inside 16 signed bits adds up as an integer. -/
theorem displacement_add {d : BitVec 16} {x : Nat} (h : d.toInt + x < 32768) :
    displacement (d + BitVec.ofNat 16 x) = displacement d + BitVec.ofNat 32 x := by
  apply BitVec.eq_of_toInt_eq
  have hext (e : BitVec 16) : (displacement e).toInt = e.toInt := BitVec.toInt_signExtend_of_le (by decide)
  have hlow := BitVec.le_toInt d
  rw [hext, toInt_add_ofNat h, BitVec.toInt_add, hext, BitVec.toInt_ofNat', Int.add_bmod_bmod, Int.bmod_eq_of_le] <;>
    omega

/-! ### Word loads one after the other -/

theorem State.setRun_concat (s : State) (r : Reg) (ws : List Word) (w : Word) :
    s.setRun r (ws ++ [w]) = (s.setRun r ws).setReg (r + BitVec.ofNat 5 ws.length) w := by
  induction ws generalizing s r with
  | nil => simp [State.setRun]
  | cons v ws ih =>
    have hreg : r + BitVec.ofNat 5 (ws.length + 1) = r + 1 + BitVec.ofNat 5 ws.length := by
      rw [Nat.add_comm, BitVec.ofNat_add, ← BitVec.add_assoc]
      rfl
    rw [List.cons_append, State.setRun, ih, State.setRun, List.length_cons, hreg]

/-- After the first `k` word loads of the block `bs`. -/
def State.wordsLoaded (s : State) (rD : Reg) (bs : List Byte) (k : Nat) : State :=
  { s.setRun rD ((List.range k).map (runWord bs)) with pc := s.pc + BitVec.ofNat 32 (4 * k) }

theorem State.wordsLoaded_zero (s : State) (rD : Reg) (bs : List Byte) : s.wordsLoaded rD bs 0 = s := by
  simp [State.wordsLoaded, State.setRun]

theorem State.wordsLoaded_succ (s : State) (rD : Reg) (bs : List Byte) (k : Nat) :
    s.wordsLoaded rD bs (k + 1) = loaded (s.wordsLoaded rD bs k) (rD + BitVec.ofNat 5 k) (runWord bs k) := by
  rw [State.wordsLoaded, List.range_succ, List.map_append, List.map_singleton, State.setRun_concat, pc_add_words_succ]
  simp [State.wordsLoaded, loaded, State.setReg]

/-- A base register outside the run is as before (R46). -/
theorem State.base_wordsLoaded {s : State} {rD rA : Reg} {bs : List Byte} {k : Nat} (hk : k ≤ 32)
    (hA : registerRunHas rD k rA = false) : (s.wordsLoaded rD bs k).base rA = s.base rA := by
  have hreg : (s.wordsLoaded rD bs k).reg rA = s.reg rA :=
    State.reg_setRun_outside (s := s) (by simpa using hk) (by simpa using hA)
  rw [State.base, State.base, hreg]

/-- Word `k` of a block that holds its bytes. -/
theorem holdsBytes_word {s : State} {a m k : Nat} {bs : List Byte} (hl : bs.length = 4 * m) (hk : k < m)
    (h : holdsBytes s a bs = true) :
    holdsBytes s (a + 4 * k) [bs.getD (4 * k) 0, bs.getD (4 * k + 1) 0, bs.getD (4 * k + 2) 0, bs.getD (4 * k + 3) 0] =
      true := by
  refine holdsBytes_iff.2 fun j hj => ?_
  have hj4 : j < 4 := hj
  obtain ⟨hadm, hbyte⟩ := holdsBytes_iff.1 h (4 * k + j) (by omega)
  have hget : bs[4 * k + j]? = some (bs.getD (4 * k + j) 0) := by
    rw [List.getD_eq_getElem?_getD, List.getElem?_eq_getElem (by omega)]
    rfl
  rw [Nat.add_assoc]
  refine ⟨hadm, (hbyte.trans hget).trans ?_⟩
  interval_cases j <;> rfl

/-- A word of a block at a multiple of 4 fits and is aligned. -/
theorem word_of_block {s : State} {ea : Word} {m k : Nat} (hk : k < m) (hf : fits ea (4 * m) = true)
    (ha : ea.toNat % 4 = 0) :
    (ea + BitVec.ofNat 32 (4 * k)).toNat = ea.toNat + 4 * k ∧ fits (ea + BitVec.ofNat 32 (4 * k)) 4 = true ∧
      alignedOrPerformed s (ea + BitVec.ofNat 32 (4 * k)) 4 = true := by
  have hfit : ea.toNat + 4 * m ≤ 4294967296 := of_decide_eq_true hf
  have haddr : (ea + BitVec.ofNat 32 (4 * k)).toNat = ea.toNat + 4 * k := toNat_add_ofNat (by omega)
  refine ⟨haddr, ?_, ?_⟩
  · rw [fits, haddr, decide_eq_true_eq]; omega
  · rw [alignedOrPerformed, haddr, Bool.or_eq_true, decide_eq_true_eq]; exact .inl (by omega)

/-- The word loads of a readable block at a multiple of 4, whose displacements add up to its addresses and whose base is
outside the run. -/
theorem execAll_wordLoads {s : State} {rD rA : Reg} {ea : Word} {m : Nat} {bs : List Byte} {disp : Nat → BitVec 16}
    (hm : m ≤ 32) (hl : bs.length = 4 * m) (hf : fits ea (4 * m) = true) (ha : ea.toNat % 4 = 0)
    (h : holdsBytes s ea.toNat bs = true) (hA : registerRunHas rD m rA = false)
    (hdisp : ∀ k, k < m → s.base rA + displacement (disp k) = ea + BitVec.ofNat 32 (4 * k)) :
    execAll ((List.range m).map fun k => .lwz (rD + BitVec.ofNat 5 k) (disp k) rA) s =
      .next (s.wordsLoaded rD bs m) := by
  have step (k : Nat) (hk : k < m) : exec (.lwz (rD + BitVec.ofNat 5 k) (disp k) rA) (s.wordsLoaded rD bs k) =
      .next (s.wordsLoaded rD bs (k + 1)) := by
    have hA' : registerRunHas rD k rA = false := by
      rw [registerRunHas_eq (by omega), decide_eq_false_iff_not] at hA ⊢
      omega
    have hea : (s.wordsLoaded rD bs k).eaD rA (disp k) = ea + BitVec.ofNat 32 (4 * k) := by
      rw [State.eaD, State.base_wordsLoaded (by omega) hA', hdisp k hk]
    obtain ⟨haddr, hfit, haligned⟩ := word_of_block (s := s.wordsLoaded rD bs k) hk hf ha
    have hholds := (holdsBytes_congr (s := s) (t := s.wordsLoaded rD bs k) (by simp [State.wordsLoaded])
      (by simp [State.wordsLoaded]) _ _).trans (haddr ▸ holdsBytes_word hl hk h)
    rw [State.wordsLoaded_succ, exec_lwz, hea]
    exact (State.loads_complete _ 0 (Nat.succ_pos 3) rfl rfl _).1 hfit haligned hholds
  simpa [State.wordsLoaded_zero] using execAll_range step

/-- All the words loaded, but for the pc, are the run loaded. -/
theorem State.wordsLoaded_all {s : State} {rD : Reg} {bs : List Byte} {m : Nat} (hl : bs.length = 4 * m) :
    s.wordsLoaded rD bs m =
      { (s.setRun rD (runWords bs)).advance with pc := s.pc + BitVec.ofNat 32 (4 * m) } := by
  have hcount : registerCount bs.length = m := by rw [registerCount, hl]; omega
  rw [runWords, hcount]
  rfl

theorem registerRunHas_below {rD rA : Reg} (h : rA.toNat < rD.toNat) :
    registerRunHas rD (32 - rD.toNat) rA = false := by
  have := rD.isLt
  rw [registerRunHas_eq (by omega), decide_eq_false_iff_not, BitVec.toNat_sub]
  omega

/-- The displacements of a block's words, where the block's last byte is within 16 signed bits. -/
theorem base_add_displacement {s : State} {rA : Reg} {d : BitVec 16} {m k : Nat} (hk : k < m)
    (h : d.toInt + (4 * m : Nat) ≤ 32768) :
    s.base rA + displacement (d + BitVec.ofNat 16 (4 * k)) = s.eaD rA d + BitVec.ofNat 32 (4 * k) := by
  rw [displacement_add (by omega), State.eaD, BitVec.add_assoc]

/-- Settles O54: lmw loads its run as the sequence does, whose base rA lies below rD and so outside the run. -/
theorem loadMultipleIsWordLoads : Obligations.LoadMultipleIsWordLoads := by
  intro s rD rA d bs hA hl hf ha h hd
  have hm : 32 - rD.toNat ≤ 32 := Nat.sub_le _ _
  refine ⟨_, _, (runLoad_completes (lmw_mem_runLoads s rD rA d) (valid_lmw_iff.2 hA) (multipleLength_pos rD) hf
    (decide_eq_true ha) hl h).1, execAll_wordLoads hm hl hf ha h (registerRunHas_below hA)
      fun k hk => base_add_displacement hk hd, State.wordsLoaded_all hl⟩

/-- Settles O56: the words of the string stand at the displacements 0, 4, ... from its address. -/
theorem loadStringIsWordLoads : Obligations.LoadStringIsWordLoads := by
  intro s rD rA nb m bs hn hl hA hf ha h
  have hm : m ≤ 8 := by have := immediateCount_le nb; omega
  have hcount : registerCount (immediateCount nb) = m := by rw [registerCount, hn]; omega
  have hdisp (k : Nat) (hk : k < m) :
      s.base rA + displacement (BitVec.ofNat 16 (4 * k)) = s.eaI rA + BitVec.ofNat 32 (4 * k) := by
    have hzero := displacement_add (d := 0#16) (x := 4 * k) (by simp; omega)
    rw [BitVec.zero_add] at hzero
    rw [hzero, State.eaI]
    exact congrArg (s.base rA + ·) (BitVec.zero_add _)
  refine ⟨_, _, (runLoad_completes (lswi_mem_runLoads s rD rA nb) (valid_lswi_iff.2 (hcount ▸ hA))
    (immediateCount_pos nb) (hn ▸ hf) (blockAligned_one _) (hl.trans hn.symm) h).1,
    execAll_wordLoads (by omega) hl hf ha h hA hdisp, State.wordsLoaded_all hl⟩

/-! ### Word stores one after the other -/

theorem State.storeBytes_append (s : State) (a : Nat) (bs cs : List Byte) :
    s.storeBytes a (bs ++ cs) = (s.storeBytes a bs).storeBytes (a + bs.length) cs := by
  induction bs generalizing s a with
  | nil => rfl
  | cons b bs ih =>
    rw [List.cons_append, State.storeBytes, ih, State.storeBytes, List.length_cons, Nat.add_assoc, Nat.add_comm 1]

/-- A store reads no pc. -/
theorem State.storeBytes_withPc (s : State) (pc : Word) (a : Nat) (bs : List Byte) :
    State.storeBytes { s with pc := pc } a bs = { s.storeBytes a bs with pc := pc } := by
  induction bs generalizing s a with
  | nil => rfl
  | cons b bs ih => exact ih (s.storeByte a b) (a + 1)

/-- The string of one register more is its four bytes more (45_load_store_string.md R98). -/
theorem stringBytes_succ_word (s : State) (r : Reg) (k : Nat) :
    stringBytes s r (4 * (k + 1)) = stringBytes s r (4 * k) ++ beBytes 4 (s.reg (r + BitVec.ofNat 5 k)) := by
  have hbyte (i : Nat) (hi : i < 4) :
      stringByte s r (4 * k + i) = (s.reg (r + BitVec.ofNat 5 k)).extractLsb' (24 - 8 * i) 8 := by
    rw [stringByte, show (4 * k + i) / 4 = k by omega, show (4 * k + i) % 4 = i by omega]
  rw [stringBytes, Nat.mul_succ, List.range_add, List.map_append]
  refine congrArg (stringBytes s r (4 * k) ++ ·) ?_
  change [stringByte s r (4 * k + 0), stringByte s r (4 * k + 1), stringByte s r (4 * k + 2),
    stringByte s r (4 * k + 3)] = _
  rw [hbyte 0 (by decide), hbyte 1 (by decide), hbyte 2 (by decide), hbyte 3 (by decide)]
  rfl

/-- After the first `k` word stores of the registers from rS on. -/
def State.wordsStored (s : State) (rS : Reg) (a k : Nat) : State :=
  { s.storeBytes a (stringBytes s rS (4 * k)) with pc := s.pc + BitVec.ofNat 32 (4 * k) }

theorem State.wordsStored_zero (s : State) (rS : Reg) (a : Nat) : s.wordsStored rS a 0 = s := by
  simp [State.wordsStored, stringBytes, State.storeBytes]

theorem State.wordsStored_succ (s : State) (rS : Reg) (a k : Nat) :
    s.wordsStored rS a (k + 1) =
      ((s.wordsStored rS a k).storeBytes (a + 4 * k) (beBytes 4 (s.reg (rS + BitVec.ofNat 5 k)))).advance := by
  have hlen : (stringBytes s rS (4 * k)).length = 4 * k := by simp [stringBytes]
  rw [State.wordsStored, stringBytes_succ_word, State.storeBytes_append, hlen, pc_add_words_succ, State.wordsStored,
    State.storeBytes_withPc]
  rfl

/-- The word stores of an admitted block at a multiple of 4, whose displacements add up to its addresses. -/
theorem execAll_wordStores {s : State} {rS rA : Reg} {ea : Word} {m : Nat} {disp : Nat → BitVec 16}
    (hf : fits ea (4 * m) = true) (ha : ea.toNat % 4 = 0) (hadm : admitted s ea.toNat (4 * m) = true)
    (hdisp : ∀ k, k < m → s.base rA + displacement (disp k) = ea + BitVec.ofNat 32 (4 * k)) :
    execAll ((List.range m).map fun k => .stw (rS + BitVec.ofNat 5 k) (disp k) rA) s =
      .next (s.wordsStored rS ea.toNat m) := by
  have step (k : Nat) (hk : k < m) : exec (.stw (rS + BitVec.ofNat 5 k) (disp k) rA) (s.wordsStored rS ea.toNat k) =
      .next (s.wordsStored rS ea.toNat (k + 1)) := by
    have hgpr : (s.wordsStored rS ea.toNat k).gpr = s.gpr := s.storeBytes_gpr _ _
    have hea : (s.wordsStored rS ea.toNat k).eaD rA (disp k) = ea + BitVec.ofNat 32 (4 * k) :=
      (State.eaD_congr hgpr rA (disp k)).trans (hdisp k hk)
    have hreg : (s.wordsStored rS ea.toNat k).reg (rS + BitVec.ofNat 5 k) = s.reg (rS + BitVec.ofNat 5 k) := by
      rw [State.reg, State.reg, hgpr]
    obtain ⟨haddr, hfit, haligned⟩ := word_of_block (s := s.wordsStored rS ea.toNat k) hk hf ha
    have hadm' : admitted (s.wordsStored rS ea.toNat k) (ea + BitVec.ofNat 32 (4 * k)).toNat 4 = true := by
      refine admitted_iff.2 fun j hj => ?_
      rw [haddr, Nat.add_assoc]
      exact (s.admits_storeBytes _ _ _).trans (admitted_iff.1 hadm (4 * k + j) (by omega))
    rw [State.wordsStored_succ, ← haddr, ← hreg]
    rw [exec_stw, hea]
    exact State.withStore_completes _ _ (Nat.succ_pos 3) hfit haligned hadm'
  simpa [State.wordsStored_zero] using execAll_range step

/-- Settles O55: stmw stores the bytes of the sequence, which reads the same registers at every word. -/
theorem storeMultipleIsWordStores : Obligations.StoreMultipleIsWordStores := by
  intro s rS rA d hf ha hadm hd
  exact ⟨_, _, runStore_completes (stmw_mem_runStores s rS rA d) hf (decide_eq_true ha) hadm,
    execAll_wordStores hf ha hadm fun k hk => base_add_displacement hk hd, rfl⟩

end Sys2Proof.Machine
end
